-- ==== Sys2Proof/Word.lean ====
section
/-! DEFINITION. The plain value types of the block: bytes, colour indices, durations, pixels. -/

namespace Sys2Proof

/-- One byte on the wire (10_state.md R35). -/
abbrev Byte := BitVec 8

/-- A colour index, 3 bits (00_scope.md R7): 0 BLACK, 1 WHITE, 2 GREEN, 3 BLUE, 4 RED, 5 YELLOW,
6 ORANGE, 7 CLEAN. -/
abbrev Colour := BitVec 3

/-- A duration in whole milliseconds; every duration the source states is one (00_scope.md R9, R10).
DESIGN CHOICE of the unit (log 26). -/
abbrev Duration := Nat

/-- An RGB pixel or a row of a reference palette: three unsigned 8-bit channels (30_encoding.md R104). -/
structure Rgb where
  r : Byte
  g : Byte
  b : Byte
deriving DecidableEq, Repr

/-- An entry of a blended palette: three mathematical integers, which may leave 0..255 when the
saturation is outside [0, 1] (40_palette.md R134 (c)). -/
structure Triple where
  r : Int
  g : Int
  b : Int
deriving DecidableEq, Repr

/-- A bitmap carrying its own width and height; `rows[y][x]` is the pixel in column `x` of row `y`
(30_encoding.md R104). -/
structure Bitmap (α : Type) where
  width  : Nat
  height : Nat
  rows   : List (List α)
deriving DecidableEq, Repr

/-- The image operand of SET_IMAGE (30_encoding.md R104): an RGB bitmap, or one that is already
colour-indexed, whose values are integers of any size and sign (40_palette.md R137). -/
inductive Image where
  | rgb     (b : Bitmap Rgb)
  | indexed (b : Bitmap Int)
deriving DecidableEq, Repr

end Sys2Proof
end

