-- ==== Sys2Proof/Config.lean ====
section
/-! DEFINITION. What is fixed for one block and never changes while it runs: the open parameters of
00_scope.md section 4 and the constants of the panel. The values stand in Machine/Params.lean. -/

namespace Sys2Proof

/-- The parameters a model takes as fields of its configuration (00_scope.md R8 to R12, 93 U20). -/
structure Config where
  /-- The fourteen controller opcodes `OP_*` (R93, D3). -/
  opTres : Byte
  opPsr  : Byte
  opPwr  : Byte
  opPll  : Byte
  opTse  : Byte
  opCdi  : Byte
  opTcon : Byte
  opDam  : Byte
  opPws  : Byte
  opPfs  : Byte
  opDtm1 : Byte
  opPon  : Byte
  opDrf  : Byte
  opPof  : Byte
  /-- The eight payloads `PL_*` the source calls fixed and does not print (R93, D4). -/
  plPsr  : List Byte
  plPwr  : List Byte
  plPll  : List Byte
  plTse  : List Byte
  plTcon : List Byte
  plDam  : List Byte
  plPws  : List Byte
  plPfs  : List Byte
  /-- `PAL_SAT` and `PAL_DESAT`, seven rows each, indexed by colour 0..6 (R11, R131, D5). -/
  palSat   : Vector Rgb 7
  palDesat : Vector Rgb 7
  /-- `CHUNK_SIZE` in bytes (R8). -/
  chunkSize : Nat
  /-- `T_RESET_LOW` and `T_RESET_HIGH` (R9). -/
  tResetLow  : Duration
  tResetHigh : Duration
  /-- `BUSY_TIMEOUT` (R10, D30). -/
  busyTimeout : Duration
  /-- `POLL_INTERVAL` (43 R191, D18). -/
  pollInterval : Duration
  /-- Pin levels (10 R33, 30 R92, D17). -/
  commandLevel : Bool
  dataLevel    : Bool
  csAsserted   : Bool
  csDeasserted : Bool
  resetLow     : Bool
  resetHigh    : Bool
  /-- SPI link parameters, which no rule reads (45 R250, D24). -/
  spiHz       : Nat
  spiMode     : Nat
  spiMsbFirst : Bool
deriving DecidableEq, Repr

end Sys2Proof
end

