-- ==== Sys2Proof/Machine/Params.lean ====
section
/-! DEFINITION. The constants of the panel and the values of the open parameters: the spec's defaults. -/

namespace Sys2Proof

/-- `W`, the number of columns (00_scope.md R6). -/
def panelWidth : Nat := 600

/-- `H`, the number of rows (00_scope.md R6). -/
def panelHeight : Nat := 448

/-- `NPIX = W*H` cells (00_scope.md R6). -/
def numPixels : Nat := 268800

/-- `FRAME_BYTES = NPIX/2` (00_scope.md R6). -/
def frameBytes : Nat := 134400

/-- `PAL_SAT` at its default (40_palette.md R131). PRESUMED (log 13). -/
def defaultPalSat : Vector Rgb 7 :=
  #v[⟨57, 48, 57⟩, ⟨255, 255, 255⟩, ⟨58, 91, 70⟩, ⟨61, 59, 94⟩, ⟨156, 72, 75⟩, ⟨208, 190, 71⟩,
     ⟨177, 106, 73⟩]

/-- `PAL_DESAT` at its default (40_palette.md R131). PRESUMED (log 13). -/
def defaultPalDesat : Vector Rgb 7 :=
  #v[⟨0, 0, 0⟩, ⟨255, 255, 255⟩, ⟨0, 255, 0⟩, ⟨0, 0, 255⟩, ⟨255, 0, 0⟩, ⟨255, 255, 0⟩,
     ⟨255, 140, 0⟩]

/-- The configuration of the modelled block: every open parameter at the spec's default (30 R93,
40 R131, 43 R191, 45 R250). PRESUMED and unsafe where the default is general knowledge (logs 12 to 15,
28). -/
def config : Config where
  opTres := 0x61
  opPsr  := 0x00
  opPwr  := 0x01
  opPll  := 0x30
  opTse  := 0x41
  opCdi  := 0x50
  opTcon := 0x60
  opDam  := 0x65
  opPws  := 0xE3
  opPfs  := 0x03
  opDtm1 := 0x10
  opPon  := 0x04
  opDrf  := 0x12
  opPof  := 0x02
  plPsr  := [0xEF, 0x08]
  plPwr  := [0x37, 0x00, 0x23, 0x23]
  plPll  := [0x3C]
  plTse  := [0x00]
  plTcon := [0x22]
  plDam  := [0x00]
  plPws  := [0xAA]
  plPfs  := [0x00]
  palSat   := defaultPalSat
  palDesat := defaultPalDesat
  chunkSize := 4096
  tResetLow  := 100
  tResetHigh := 100
  busyTimeout := 15000
  pollInterval := 10
  commandLevel := false
  dataLevel    := true
  csAsserted   := false
  csDeasserted := true
  resetLow     := false
  resetHigh    := true
  spiHz       := 3000000
  spiMode     := 0
  spiMsbFirst := true

end Sys2Proof
end

