-- ==== Sys2Proof/Syntax.lean ====
section
/-! DEFINITION. The instructions: one constructor per row of spec/opcode_table.json, seventeen block
operations (30_encoding.md R106) and fourteen wire commands (R93); and the encoded forms of both. -/

namespace Sys2Proof

/-- The fourteen commands the block sends to the panel controller (30_encoding.md R93). -/
inductive WireCommand where
  | tres | psr | pwr | pll | tse | cdi | tcon | dam | pws | pfs | dtm1 | pon | drf | pof
deriving DecidableEq, Repr

/-- The instructions. Operands are those of 30_encoding.md R108, in its order. -/
inductive Instr where
  /-- SET_PIXEL(x, y, colour): integers of any size and sign (R150). -/
  | setPixel (x y colour : Int)
  /-- SET_IMAGE(image, s) (R152). -/
  | setImage (image : Image) (s : Rat)
  /-- SET_BORDER(colour) (R154). -/
  | setBorder (colour : Int)
  /-- SHOW() (R204). -/
  | showPanel
  /-- SETUP() (R196). -/
  | setup
  /-- SET_HFLIP(b) (R156). -/
  | setHflip (b : Bool)
  /-- SET_VFLIP(b) (R157). -/
  | setVflip (b : Bool)
  /-- SET_ROTATION(deg) (R158). -/
  | setRotation (deg : Int)
  /-- BLEND(s) (R132). -/
  | blend (s : Rat)
  /-- BLEND24(s) (R133). -/
  | blend24 (s : Rat)
  /-- QUANTIZE(image, pal): an RGB bitmap of the panel's size and eight RGB triples (R135). -/
  | quantize (image : Bitmap Rgb) (pal : List Triple)
  /-- RENDER(border, hf, vf, rot) (R160). -/
  | render (border : Colour) (hf vf : Bool) (rot : Int)
  /-- PACK(v) (R180). -/
  | pack (v : List Colour)
  /-- UPDATE(frame) (R202). -/
  | update (frame : List Byte)
  /-- SEND_COMMAND(op, data) (R194). -/
  | sendCommand (op : Byte) (data : List Byte)
  /-- AWAIT_READY(timeout) (R190). -/
  | awaitReady (timeout : Duration)
  /-- WRITE(is_data, bytes) (R240). -/
  | write (isData : Bool) (bytes : List Byte)
  | tres   -- R220
  | psr    -- R221
  | pwr    -- R222
  | pll    -- R223
  | tse    -- R224
  | cdi    -- R225
  | tcon   -- R226
  | dam    -- R227
  | pws    -- R228
  | pfs    -- R229
  | dtm1   -- R230
  | pon    -- R231
  | drf    -- R232
  | pof    -- R233
deriving DecidableEq, Repr

/-- The instruction that sends a wire command. -/
def Instr.ofWire : WireCommand → Instr
  | .tres => .tres
  | .psr => .psr
  | .pwr => .pwr
  | .pll => .pll
  | .tse => .tse
  | .cdi => .cdi
  | .tcon => .tcon
  | .dam => .dam
  | .pws => .pws
  | .pfs => .pfs
  | .dtm1 => .dtm1
  | .pon => .pon
  | .drf => .drf
  | .pof => .pof

/-- One operand as a request carries it. Operands have no bit layout (30_encoding.md R107, D1), so the
model gives each kind of value its own form (log 5). -/
inductive Operand where
  | int     (n : Int)
  | rat     (q : Rat)
  | image   (i : Image)
  | ints    (l : List Int)
  | bytes   (l : List Byte)
  | triples (l : List Triple)
deriving DecidableEq, Repr

/-- Format HOSTOP: an operation selector and its operands (30_encoding.md R107). -/
structure Request where
  opsel    : Byte
  operands : List Operand
deriving DecidableEq, Repr

/-- An encoded instruction: a request to the block (format HOSTOP) or an opcode byte on the wire
(format WIRE, 30_encoding.md R90). The two spaces of numbers are separate (log 4). -/
inductive Encoded where
  | request (r : Request)
  | wire    (op : Byte)
deriving DecidableEq, Repr

/-- Why a word is no instruction. -/
inductive DecodeError where
  /-- The selector selects no operation (30_encoding.md R107). -/
  | unknownOpsel (opsel : Byte)
  /-- The byte is none of the fourteen opcodes (30_encoding.md R101). -/
  | unknownOpcode (op : Byte)
  /-- The operands are not of the number and form of 30_encoding.md R108, or one lies outside its type
  (93 U13, U17). -/
  | badOperands (opsel : Byte)
  /-- The operands have the right form and are not well formed (93 U11, U17). -/
  | illFormed (opsel : Byte)
deriving DecidableEq, Repr

end Sys2Proof
end

