-- ==== Sys2Proof/Machine/State.lean ====
section
/-! DEFINITION. The state of the block (10_state.md), as plain data, the reasons a step can stop, and
the state after reset. -/

namespace Sys2Proof.Machine

/-- `PHASE`, the Protocol Driver's state (10_state.md R30). -/
inductive Phase where
  | idle | resetting | configuring | transmittingData | awaitingPowerOn | refreshing | poweringOff
deriving DecidableEq, Repr

/-- The six result codes (60_exceptions.md R260). -/
inductive ResultCode where
  | ok | sizeMismatch | busyTimeout | transportFailure | outOfBounds | invalidArgument
deriving DecidableEq, Repr

/-- An event of `TRACE` (10_state.md R42). -/
inductive Event where
  /-- `RST(b)`: RESET_OUT driven to level `b`. -/
  | rst (b : Bool)
  /-- `DC(b)`: DC_OUT driven to level `b`. -/
  | dc (b : Bool)
  /-- `CS(b)`: CS_OUT driven to level `b`. -/
  | cs (b : Bool)
  /-- `XFER(bytes)`: one SPI transaction that succeeds. -/
  | xfer (bytes : List Byte)
  /-- `XFAIL(bytes)`: one SPI transaction that the transport reports as failed. -/
  | xfail (bytes : List Byte)
  /-- `DELAY(d)`: at least `d` passes with no other event. -/
  | delay (d : Duration)
  /-- `POLL(b)`: BUSY_IN was read and returned `b`. -/
  | poll (b : Bool)
deriving DecidableEq, Repr

/-- What an operation hands back with its completion besides `RESULT`: the value it returns
(10_state.md R21, 30_encoding.md R108) or the information its error records (60_exceptions.md R260). -/
inductive Reply where
  | none
  /-- BLEND: 24 integers. -/
  | flat (l : List Int)
  /-- BLEND24: 8 packed colours. -/
  | packed (l : List (BitVec 24))
  /-- QUANTIZE: an indexed image. -/
  | indexed (b : Bitmap Colour)
  /-- RENDER: the rendered sequence. -/
  | indices (l : List Colour)
  /-- PACK: bytes. -/
  | bytes (l : List Byte)
  /-- OutOfBounds: the offending coordinates. -/
  | coords (x y : Int)
  /-- InvalidArgument of SET_ROTATION: the offending number of degrees. -/
  | degrees (deg : Int)
  /-- InvalidArgument of PACK: the offending sequence. -/
  | oddSequence (v : List Colour)
deriving DecidableEq, Repr

/-- An input of the block: the value it holds now and the values it will be found at when it is next
looked at. A look takes the next scheduled value, and the input keeps its last value when nothing more is
scheduled. What an input holds is the environment's choice (43_protocol_driver.md R192, 45_transport.md
R246), so a claim about every state is a claim about every answer (log 8). -/
structure Input (α : Type) where
  now  : α
  next : List α
deriving DecidableEq, Repr

/-- The frame buffer `FB`: the non-zero cells as (address, colour index) pairs, addresses strictly rising.
The address of cell `(x, y)` is `y*600 + x` (20_memory.md R61); an unlisted cell reads 0, BLACK, the reset
value (10_state.md R24). A cell, not a byte, is the smallest unit the block addresses (R60). -/
abbrev Memory := List (Nat × Colour)

/-- Who asks for an operation. -/
inductive Caller where
  /-- The host. It can ask for the eight host-callable operations and do nothing else to the block
  (70_reset_and_hazards.md R304, 92_eei_decisions.md D26). -/
  | host
  /-- Whoever tests the components on their own: D26 says that the nine component operations are testable
  alone and are no host requests, and does not say how they are then reached. DESIGN CHOICE (log 36). -/
  | bench
deriving DecidableEq, Repr

/-- A request and who makes it. -/
structure Call where
  caller  : Caller
  request : Request
deriving DecidableEq, Repr

/-- The state of the block (10_state.md R20). -/
structure State where
  /-- `FB` (R22). -/
  fb : Memory
  /-- `BORDER` (R25). -/
  border : Colour
  /-- `HFLIP` (R26). -/
  hflip : Bool
  /-- `VFLIP` (R27). -/
  vflip : Bool
  /-- `ROTATION`, degrees (R28). -/
  rotation : Int
  /-- `PHASE` (R30). -/
  phase : Phase
  /-- `STEP`, 0..24 (R31). -/
  stepReg : Fin 25
  /-- `IN_UPDATE` (R32). -/
  inUpdate : Bool
  /-- `RESET_OUT` (R33). -/
  resetOut : Bool
  /-- `DC_OUT` (R33). -/
  dcOut : Bool
  /-- `CS_OUT` (R33). -/
  csOut : Bool
  /-- `BUSY_IN`, the level the pin holds and will hold (R34). -/
  busyIn : Input Bool
  /-- `TIMER`, milliseconds (R36). -/
  timer : Nat
  /-- `RESULT` (R37). -/
  result : ResultCode
  /-- `TRACE`, oldest event first (R42). -/
  trace : List Event
  /-- The model's own: what the last operation handed back (R21; log 6). -/
  reply : Reply
  /-- The model's own: the packed frame in flight, empty while Idle (R38; log 7). -/
  frame : List Byte
  /-- The model's own: the transport's answers to coming transfers, true for success (45 R246; log 8). -/
  bus : Input Bool
  /-- The model's own: how much longer than asked the coming sleeps last (60 R276; log 9). -/
  lag : Input Nat
  /-- The model's own: the requests not yet started, each with its caller, first one first (70 R313; logs 2,
  36). -/
  requests : List Call
deriving DecidableEq, Repr

/-- Why the machine stops with a fault. -/
inductive Fault where
  /-- A block operation was to be executed while a sequence runs. Raised by the meaning of every HOSTOP
  instruction when `PHASE` is not Idle. The spec gives such a request no meaning and treats it as stuck
  (20 R80, 92 D25, 93 U9). Safe: the model stops where the block's behaviour is undefined. `step` never
  raises it. -/
  | requestWhileRunning
deriving DecidableEq, Repr

/-- Why the machine refuses an instruction. -/
inductive Refusal where
  /-- An instruction that has no meaning yet. Raised by nobody: every arm has its meaning. -/
  | notModelled (mnemonic : String)
  /-- The request at the head of the list is no instruction (30 R107, 93 U17). Raised by `step`. Safe: the
  spec says the model refuses it. -/
  | undecodable (e : DecodeError)
  /-- The host asks for a component operation, selectors 0x10 to 0x18 (30 R106). Raised by `step`. Safe: the
  spec says that these are no host requests and that the host can do nothing else to the block (70 R304, 92
  D26), so no host of the block makes such a request. -/
  | notHostCallable (opsel : Byte)
  /-- An operand is not well formed (41 R160, 43 R202, 93 U11, U17). Raised by the meanings of SET_IMAGE,
  QUANTIZE, RENDER and UPDATE. Safe: the spec says the model refuses it. -/
  | illFormed (mnemonic : String)
  /-- BLEND24 with a saturation that takes a channel outside 0..255 (40 R133, 93 U4). Raised by BLEND24's
  meaning. Safe: the spec says the model refuses it. -/
  | channelOutOfRange
deriving DecidableEq, Repr

/-- What executing an instruction answers. -/
abbrev Answer := Host.Outcome State Fault Refusal

/-- The block right after its construction (10_state.md R43, 70 R290). The values of `busyIn`, `timer`,
`reply`, `frame`, `bus`, `lag` and `requests` are DESIGN CHOICE (logs 2, 6, 7, 8, 9). -/
def State.reset : State where
  fb := []
  border := 1
  hflip := false
  vflip := false
  rotation := 0
  phase := .idle
  stepReg := 0
  inUpdate := false
  resetOut := true
  dcOut := false
  csOut := true
  busyIn := ⟨true, []⟩
  timer := 0
  result := .ok
  trace := []
  reply := .none
  frame := []
  bus := ⟨true, []⟩
  lag := ⟨0, []⟩
  requests := []

end Sys2Proof.Machine
end

