-- ==== Sys2Proof/Machine/Ops.lean ====
section
/-! DEFINITION. The named operations over the frame buffer, the inputs, the pins, the time base and the
sequencer registers; taking an error, and completing. -/

namespace Sys2Proof.Machine

/-! ## The frame buffer (20_memory.md R60, R61) -/

/-- Read the cell at an address; an unlisted cell is BLACK (10_state.md R24). -/
def Memory.read : Memory → Nat → Colour
  | [], _ => 0
  | (k, v) :: m, a => if a < k then 0 else if a = k then v else Memory.read m a

/-- Write the cell at an address; a cell written with 0 leaves the list (canonical form). -/
def Memory.write : Memory → Nat → Colour → Memory
  | [], a, v => if v = 0 then [] else [(a, v)]
  | (k, w) :: m, a, v =>
    if a < k then (if v = 0 then (k, w) :: m else (a, v) :: (k, w) :: m)
    else if a = k then (if v = 0 then m else (a, v) :: m)
    else (k, w) :: Memory.write m a v

/-- The memory whose cells from address `a` on are the given ones, in order. -/
def Memory.ofCells : Nat → List Colour → Memory
  | _, [] => []
  | a, c :: cs => if c = 0 then Memory.ofCells (a + 1) cs else (a, c) :: Memory.ofCells (a + 1) cs

/-- Canonical from address `lo` on: addresses strictly rising and in the buffer, no cell listed that
holds 0. -/
def Memory.wfFrom : Nat → Memory → Bool
  | _, [] => true
  | lo, (k, v) :: m =>
    decide (lo ≤ k) && decide (k < numPixels) && decide (v ≠ 0) && Memory.wfFrom (k + 1) m

/-- The canonical form of the frame buffer. -/
def Memory.wf (m : Memory) : Bool := Memory.wfFrom 0 m

/-- The address of the cell for pixel coordinate `(x, y)` (20_memory.md R61). -/
def cellAddr (x y : Nat) : Nat := y * panelWidth + x

/-! ## Inputs -/

/-- Look at an input: its next scheduled value, or the value it holds when none is scheduled. -/
def Input.look {α : Type} (i : Input α) : α × Input α :=
  match i.next with
  | [] => (i.now, i)
  | v :: vs => (v, ⟨v, vs⟩)

/-! ## Pins, bus and time: the primitives of 00_scope.md section 5, one event each (10_state.md R42) -/

/-- `drive(RESET_OUT, b)`. -/
def State.driveReset (b : Bool) (s : State) : State :=
  { s with resetOut := b, trace := s.trace ++ [.rst b] }

/-- `drive(DC_OUT, b)`. -/
def State.driveDc (b : Bool) (s : State) : State :=
  { s with dcOut := b, trace := s.trace ++ [.dc b] }

/-- `drive(CS_OUT, b)`. -/
def State.driveCs (b : Bool) (s : State) : State :=
  { s with csOut := b, trace := s.trace ++ [.cs b] }

/-- `sample(BUSY_IN)`: the level read, and the state with the read recorded (10_state.md R34). -/
def State.sample (s : State) : Bool × State :=
  (s.busyIn.look.1,
   { s with busyIn := s.busyIn.look.2, trace := s.trace ++ [.poll s.busyIn.look.1] })

/-- `delay(d)`: at least `d` passes (60_exceptions.md R276); the environment says how much more. -/
def State.delay (d : Duration) (s : State) : State :=
  { s with
    timer := s.timer + d + s.lag.look.1
    lag := s.lag.look.2
    trace := s.trace ++ [.delay d] }

/-- An action of the block: the state it leaves and how it ended. -/
abbrev Ended := State × ResultCode

/-- Go on only if what came before ended with `OK`; an error passes up unchanged (60_exceptions.md
R267). -/
def andThen (r : Ended) (k : State → Ended) : Ended :=
  if r.2 = .ok then k r.1 else r

/-- `xfer(bytes)`: one SPI transaction, whose success the transport decides (45_transport.md R246). -/
def State.xfer (bytes : List Byte) (s : State) : Ended :=
  if s.bus.look.1 then
    ({ s with bus := s.bus.look.2, trace := s.trace ++ [.xfer bytes] }, .ok)
  else
    ({ s with bus := s.bus.look.2, trace := s.trace ++ [.xfail bytes] }, .transportFailure)

/-! ## The sequencer registers (10_state.md R30 to R32, 43_protocol_driver.md R201) -/

/-- The phase of each microprogram position (10_state.md R31). -/
def phaseOf (n : Fin 25) : Phase :=
  if n.val ≤ 4 then .resetting
  else if n.val ≤ 15 then .configuring
  else if n.val ≤ 17 then .transmittingData
  else if n.val ≤ 19 then .awaitingPowerOn
  else if n.val ≤ 21 then .refreshing
  else .poweringOff

/-- The start of SETUP or UPDATE (43_protocol_driver.md R201). -/
def State.start (inUpdate : Bool) (frame : List Byte) (s : State) : State :=
  { s with phase := .resetting, stepReg := 0, inUpdate := inUpdate, frame := frame }

/-- The end of SETUP or UPDATE (43_protocol_driver.md R201). -/
def State.finish (s : State) : State :=
  { s with
    phase := .idle, stepReg := 0, inUpdate := false, frame := []
    result := .ok, reply := .none }

/-- `STEP <- STEP + 1`, and `PHASE` follows (43_protocol_driver.md R201). Position 24 is followed by
Idle, never by position 0 (10_state.md R31). -/
def State.advance (s : State) : State :=
  if h : s.stepReg.val + 1 < 25 then
    { s with stepReg := ⟨s.stepReg.val + 1, h⟩, phase := phaseOf ⟨s.stepReg.val + 1, h⟩ }
  else s.finish

/-! ## Errors and completion -/

/-- Taking an error, the block's "trap entry" (60_exceptions.md R266): `RESULT` is the code, the
sequencer is Idle at position 0 with the link clear, everything else stays as the operation left it.
`info` is what the error records (R260). There is no return from it: the result is the return (R269). -/
def State.raise (code : ResultCode) (info : Reply) (s : State) : State :=
  { s with
    phase := .idle, stepReg := 0, inUpdate := false, frame := []
    result := code, reply := info }

/-- An operation that completes reports `OK` and returns its value (10_state.md R21, R37). -/
def State.complete (value : Reply) (s : State) : State :=
  { s with result := .ok, reply := value }

/-- The end of an operation requested on its own: its result is reported (60_exceptions.md R260). -/
def settle (r : Ended) : State :=
  if r.2 = .ok then r.1.complete .none else r.1.raise r.2 .none

/-- The end of a micro-step of a running sequence: the next position, or the error (43 R201). -/
def settleMicro (r : Ended) : State :=
  if r.2 = .ok then r.1.advance else r.1.raise r.2 .none

/-- A block operation runs only while no other does; the spec gives a request during a running sequence
no meaning (20_memory.md R80, 92 D25, 93 U9; log 3). -/
def whenIdle (s : State) (k : State → Answer) : Answer :=
  if s.phase = .idle then k s else .fault .requestWhileRunning

end Sys2Proof.Machine
end

