-- ==== Sys2Proof/WellFormed.lean ====
section
/-! DEFINITION. Which instructions are well-formed requests. -/

namespace Sys2Proof

/-- A bitmap holds as many rows, and each row as many pixels, as the sizes it carries say. -/
def Bitmap.wf {α : Type} (b : Bitmap α) : Bool :=
  decide (b.rows.length = b.height) && b.rows.all fun r => decide (r.length = b.width)

/-- The bitmap's sizes are those of the panel (41_framebuffer.md R152). -/
def Bitmap.isPanelSize {α : Type} (b : Bitmap α) : Bool :=
  decide (b.width = panelWidth) && decide (b.height = panelHeight)

def Image.wf : Image → Bool
  | .rgb b => b.wf
  | .indexed b => b.wf

/-- A well-formed request. SET_IMAGE takes an image of any size (30_encoding.md R104); QUANTIZE takes
448 rows of 600 pixels and eight triples (R135); RENDER's rotation is a multiple of 90 (R160); UPDATE's
frame has `FRAME_BYTES` bytes (R202). Every other operand is well formed by its type. -/
def Instr.wf : Instr → Bool
  | .setImage image _ => image.wf
  | .quantize image pal => image.wf && image.isPanelSize && decide (pal.length = 8)
  | .render _ _ _ rot => decide (rot % 90 = 0)
  | .update frame => decide (frame.length = frameBytes)
  | .setPixel _ _ _ | .setBorder _ | .showPanel | .setup | .setHflip _ | .setVflip _
  | .setRotation _ | .blend _ | .blend24 _ | .pack _ | .sendCommand _ _ | .awaitReady _
  | .write _ _ => true
  | .tres | .psr | .pwr | .pll | .tse | .cdi | .tcon | .dam | .pws | .pfs | .dtm1 | .pon | .drf
  | .pof => true

end Sys2Proof
end

