-- ==== Sys2Proof/Machine/Operands.lean ====
section
/-! DEFINITION. The operand forms of the operations: masking a colour, the buffer's bounds, the bounds
of the named colours, quarter turns (40_palette.md R137). -/

namespace Sys2Proof.Machine

/-- `colour & 0x07` of an integer of any size and sign: the low three bits of its two's complement
(41_framebuffer.md R150). -/
def maskColour (n : Int) : Colour := BitVec.ofInt 3 n

/-- The coordinates of a cell: `0 <= x < 600` and `0 <= y < 448` (20_memory.md R61). -/
def inBounds (x y : Int) : Bool :=
  decide (0 ≤ x) && decide (x < panelWidth) && decide (0 ≤ y) && decide (y < panelHeight)

/-- `0 <= colour <= 7`: one of the eight named colours (41_framebuffer.md R154). -/
def isNamedColour (n : Int) : Bool := decide (0 ≤ n) && decide (n ≤ 7)

/-- `K = (rot div 90) mod 4`, quarter turns counter-clockwise (41_framebuffer.md R160). -/
def quarterTurns (rot : Int) : Nat := ((rot / 90) % 4).toNat

end Sys2Proof.Machine
end

