-- ==== Sys2Proof/Machine/Palette.lean ====
section
/-! DEFINITION. The Palette Engine: BLEND, BLEND24, QUANTIZE (40_palette.md). Pure: it reads the two
tables and its operands and writes no pin and no byte (R130). -/

namespace Sys2Proof.Machine

/-- `trunc(q)`: the integer part, toward zero (00_scope.md section 5). -/
def truncRat (q : Rat) : Int := q.num.tdiv q.den

/-- One channel of a blend, exact and truncated once (40_palette.md R132, R136). No clamp (R134 (c)). -/
def blendChannel (sat desat : Byte) (s : Rat) : Int :=
  truncRat ((sat.toNat : Rat) * s + (desat.toNat : Rat) * (1 - s))

/-- One entry of a blend. -/
def blendEntry (sat desat : Rgb) (s : Rat) : Triple :=
  ⟨blendChannel sat.r desat.r s, blendChannel sat.g desat.g s, blendChannel sat.b desat.b s⟩

/-- Entry 7, CLEAN, is always pure white (40_palette.md R131). -/
def whiteEntry : Triple := ⟨255, 255, 255⟩

/-- The blended palette of two tables as eight triples (40_palette.md R132). -/
def blendTables (sat desat : Vector Rgb 7) (s : Rat) : List Triple :=
  (List.finRange 7).map (fun i => blendEntry sat[i] desat[i] s) ++ [whiteEntry]

/-- The blended palette of the block's own tables. -/
def blendPalette (s : Rat) : List Triple := blendTables config.palSat config.palDesat s

/-- The flat form: red, green, blue of entry 0, then of entry 1, to entry 7 (20_memory.md R66). -/
def flatten : List Triple → List Int
  | [] => []
  | t :: ts => t.r :: t.g :: t.b :: flatten ts

/-- A channel value that has an 8-bit field to go into. -/
def isByte (n : Int) : Bool := decide (0 ≤ n) && decide (n ≤ 255)

/-- Every channel of every entry is in 0..255 (40_palette.md R133). -/
def allBytes (p : List Triple) : Bool := p.all fun t => isByte t.r && isByte t.g && isByte t.b

/-- `(r << 16) | (g << 8) | b`, format RGB24 (30_encoding.md R100). -/
def packTriple (t : Triple) : BitVec 24 :=
  (BitVec.ofInt 24 t.r <<< 16) ||| (BitVec.ofInt 24 t.g <<< 8) ||| BitVec.ofInt 24 t.b

/-- Squared Euclidean distance, exact (40_palette.md R135). -/
def dist (p : Triple) (c : Rgb) : Int :=
  (p.r - c.r.toNat) ^ 2 + (p.g - c.g.toNat) ^ 2 + (p.b - c.b.toNat) ^ 2

/-- The scan of QUANTIZE from entry `i` on, `best` being the entry chosen so far and `d` its distance; a
later entry wins only if strictly nearer (40_palette.md R135). -/
def nearestFrom (c : Rgb) : List Triple → Nat → Nat → Int → Nat
  | [], _, best, _ => best
  | p :: ps, i, best, d =>
    if dist p c < d then nearestFrom c ps (i + 1) i (dist p c) else nearestFrom c ps (i + 1) best d

/-- The index of the nearest palette entry, the lowest on a tie (40_palette.md R135). -/
def nearest (pal : List Triple) (c : Rgb) : Colour :=
  match pal with
  | [] => 0
  | p :: ps => BitVec.ofNat 3 (nearestFrom c ps 1 0 (dist p c))

/-- Every pixel mapped on its own (40_palette.md R135). -/
def quantizeRows (pal : List Triple) (rows : List (List Rgb)) : List (List Colour) :=
  rows.map fun row => row.map (nearest pal)

/-- BLEND(s) (40_palette.md R132): returns 24 integers, writes nothing. -/
def execBlend (sat : Rat) (s : State) : Answer :=
  whenIdle s fun s => .next (s.complete (.flat (flatten (blendPalette sat))))

/-- BLEND24(s) (40_palette.md R133): refused when a channel is outside 0..255 (93 U4). -/
def execBlend24 (sat : Rat) (s : State) : Answer :=
  whenIdle s fun s =>
    if allBytes (blendPalette sat) then
      .next (s.complete (.packed ((blendPalette sat).map packTriple)))
    else .refused .channelOutOfRange

/-- QUANTIZE(image, pal) (40_palette.md R135). An image that is not 448 rows of 600 pixels, or a palette
of other than eight entries, is not a well-formed operand (log 20). -/
def execQuantize (image : Bitmap Rgb) (pal : List Triple) (s : State) : Answer :=
  whenIdle s fun s =>
    if image.wf && image.isPanelSize && decide (pal.length = 8) then
      .next (s.complete
        (.indexed ⟨image.width, image.height, quantizeRows pal image.rows⟩))
    else .refused (.illFormed "QUANTIZE")

end Sys2Proof.Machine
end

