-- ==== Sys2Proof/Machine/FrameBuffer.lean ====
section
/-! DEFINITION. The Frame Buffer's operations and RENDER (41_framebuffer.md). None of them touches a pin
or the wire. -/

namespace Sys2Proof.Machine

/-! ## Writing cells -/

/-- SET_PIXEL(x, y, colour) (41_framebuffer.md R150): the bounds come first (R151), then the colour is
masked and one cell written. -/
def execSetPixel (x y colour : Int) (s : State) : Answer :=
  whenIdle s fun s =>
    if inBounds x y then
      .next (({ s with fb := s.fb.write (cellAddr x.toNat y.toNat) (maskColour colour) }
        : State).complete .none)
    else .next (s.raise .outOfBounds (.coords x y))

/-- The colour indices an image puts into the buffer: an RGB image is quantised against the blended
palette, an indexed one is masked to three bits and the saturation ignored (41 R152, R153). -/
def imageIndices (image : Image) (sat : Rat) : List (List Colour) :=
  match image with
  | .rgb b => quantizeRows (blendPalette sat) b.rows
  | .indexed b => b.rows.map fun row => row.map maskColour

/-- Both sizes are the panel's (41_framebuffer.md R152). -/
def isPanelSized : Image → Bool
  | .rgb b => b.isPanelSize
  | .indexed b => b.isPanelSize

/-- SET_IMAGE(image, s) (41_framebuffer.md R152): the size check comes first and nothing is written when
it fails; otherwise the whole buffer is replaced. An image whose rows are not of the sizes it carries is
no bitmap (log 20). -/
def execSetImage (image : Image) (sat : Rat) (s : State) : Answer :=
  whenIdle s fun s =>
    if !isPanelSized image then .next (s.raise .sizeMismatch .none)
    else if image.wf then
      .next (({ s with fb := Memory.ofCells 0 (imageIndices image sat).flatten }
        : State).complete .none)
    else .refused (.illFormed "SET_IMAGE")

/-! ## Writing the orientation registers -/

/-- SET_BORDER(colour) (41_framebuffer.md R154): a value outside 0..7 is ignored; OK in both cases. -/
def execSetBorder (colour : Int) (s : State) : Answer :=
  whenIdle s fun s =>
    .next ((if isNamedColour colour then { s with border := maskColour colour } else s).complete .none)

/-- SET_HFLIP(b) (41_framebuffer.md R156). -/
def execSetHflip (b : Bool) (s : State) : Answer :=
  whenIdle s fun s => .next (({ s with hflip := b } : State).complete .none)

/-- SET_VFLIP(b) (41_framebuffer.md R157). -/
def execSetVflip (b : Bool) (s : State) : Answer :=
  whenIdle s fun s => .next (({ s with vflip := b } : State).complete .none)

/-- SET_ROTATION(deg) (41_framebuffer.md R158): a value that is not a multiple of 90 is an error and
leaves the register. -/
def execSetRotation (deg : Int) (s : State) : Answer :=
  whenIdle s fun s =>
    if deg % 90 = 0 then .next (({ s with rotation := deg } : State).complete .none)
    else .next (s.raise .invalidArgument (.degrees deg))

/-! ## RENDER (41_framebuffer.md R160) -/

/-- The stored buffer, `A0[y][x]`. -/
def storedImage (m : Memory) (y x : Nat) : Colour := m.read (cellAddr x y)

/-- Step 1, mirror left-right when `hf` is set. -/
def mirrorLeftRight (hf : Bool) (a : Nat → Nat → Colour) (y x : Nat) : Colour :=
  if hf then a y (599 - x) else a y x

/-- Step 2, mirror top-bottom when `vf` is set. -/
def mirrorTopBottom (vf : Bool) (a : Nat → Nat → Colour) (y x : Nat) : Colour :=
  if vf then a (447 - y) x else a y x

/-- Step 3, `k` quarter turns counter-clockwise, `A3[i][j]`. -/
def turn (k : Nat) (a : Nat → Nat → Colour) (i j : Nat) : Colour :=
  match k with
  | 0 => a i j
  | 1 => a j (599 - i)
  | 2 => a (447 - i) (599 - j)
  | _ => a (447 - j) i

/-- The number of columns of the turned image. -/
def turnedColumns (k : Nat) : Nat := if k % 2 = 0 then panelWidth else panelHeight

/-- The image after its four transforms, before it is flattened. -/
def turnedImage (m : Memory) (hf vf : Bool) (k : Nat) : Nat → Nat → Colour :=
  turn k (mirrorTopBottom vf (mirrorLeftRight hf (storedImage m)))

/-- The transmit-ready sequence: step 4 flattens row-major (41_framebuffer.md R160). -/
def renderSequence (m : Memory) (hf vf : Bool) (k : Nat) : List Colour :=
  (List.range numPixels).map fun n =>
    turnedImage m hf vf k (n / turnedColumns k) (n % turnedColumns k)

/-- RENDER(border, hf, vf, rot) (41_framebuffer.md R160). `border` is accepted and not used (R155). A
rotation that is not a multiple of 90 is not a well-formed request. -/
def execRender (_border : Colour) (hf vf : Bool) (rot : Int) (s : State) : Answer :=
  whenIdle s fun s =>
    if rot % 90 = 0 then
      .next (s.complete (.indices (renderSequence s.fb hf vf (quarterTurns rot))))
    else .refused (.illFormed "RENDER")

end Sys2Proof.Machine
end

