-- ==== Sys2Proof/Machine/Packer.lean ====
section
/-! DEFINITION. The Bit Packer: PACK (42_packer.md). -/

namespace Sys2Proof.Machine

/-- `(a << 4) | (b & 0x0F)`, format PIXBYTE (30_encoding.md R98). -/
def packPair (a b : Colour) : Byte :=
  (a.setWidth 8 <<< 4) ||| (b.setWidth 8 &&& 0x0F)

/-- Two indices a byte, the even one in the high nibble (42_packer.md R180). A last element without a
partner is reached only for an odd length, which PACK refuses first (R181). -/
def packIndices : List Colour → List Byte
  | a :: b :: v => packPair a b :: packIndices v
  | _ => []

/-- UNPACK, the reference inverse (42_packer.md R182); not an operation of the block. -/
def unpackBytes : List Byte → List (BitVec 4)
  | [] => []
  | x :: xs => x.extractLsb' 4 4 :: x.extractLsb' 0 4 :: unpackBytes xs

/-- PACK(v) (42_packer.md R180): an odd length is InvalidArgument and returns nothing (R181). -/
def execPack (v : List Colour) (s : State) : Answer :=
  whenIdle s fun s =>
    if v.length % 2 = 0 then .next (s.complete (.bytes (packIndices v)))
    else .next (s.raise .invalidArgument (.oddSequence v))

end Sys2Proof.Machine
end

