-- ==== Sys2Proof/Decode.lean ====
section
/-! DEFINITION. The decoder of requests and of wire opcodes, total and rejecting by name, and after it
the encoder (30_encoding.md R93, R107, R108). -/

namespace Sys2Proof

/-! ## Operands of a request (30_encoding.md R108) -/

/-- A flag operand is 0 or 1 (41_framebuffer.md R156; 93 U17). -/
def flagOf (n : Int) : Option Bool :=
  if n = 0 then some false else if n = 1 then some true else none

/-- A byte operand is 0..255. -/
def byteOf (n : Int) : Option Byte :=
  if 0 ≤ n ∧ n < 256 then some (BitVec.ofInt 8 n) else none

/-- A colour-index operand is 0..7; anything else is no colour index (93 U13). -/
def colourOf (n : Int) : Option Colour :=
  if 0 ≤ n ∧ n < 8 then some (BitVec.ofInt 3 n) else none

/-- A duration operand is not negative. -/
def durationOf (n : Int) : Option Duration :=
  if 0 ≤ n then some n.toNat else none

/-- Every element is a colour index, or there is no sequence (93 U13). -/
def coloursOf : List Int → Option (List Colour)
  | [] => some []
  | n :: ns =>
    match colourOf n, coloursOf ns with
    | some c, some cs => some (c :: cs)
    | _, _ => none

def decodeSetPixel : List Operand → Option Instr
  | [.int x, .int y, .int colour] => some (.setPixel x y colour)
  | _ => none

def decodeSetImage : List Operand → Option Instr
  | [.image i, .rat s] => some (.setImage i s)
  | _ => none

def decodeSetBorder : List Operand → Option Instr
  | [.int colour] => some (.setBorder colour)
  | _ => none

def decodeNoOperand (i : Instr) : List Operand → Option Instr
  | [] => some i
  | _ => none

def decodeSetHflip : List Operand → Option Instr
  | [.int b] => (flagOf b).map .setHflip
  | _ => none

def decodeSetVflip : List Operand → Option Instr
  | [.int b] => (flagOf b).map .setVflip
  | _ => none

def decodeSetRotation : List Operand → Option Instr
  | [.int deg] => some (.setRotation deg)
  | _ => none

def decodeBlend : List Operand → Option Instr
  | [.rat s] => some (.blend s)
  | _ => none

def decodeBlend24 : List Operand → Option Instr
  | [.rat s] => some (.blend24 s)
  | _ => none

def decodeQuantize : List Operand → Option Instr
  | [.image (.rgb b), .triples pal] => some (.quantize b pal)
  | _ => none

def decodeRender : List Operand → Option Instr
  | [.int border, .int hf, .int vf, .int rot] =>
    match colourOf border, flagOf hf, flagOf vf with
    | some c, some h, some v => some (.render c h v rot)
    | _, _, _ => none
  | _ => none

def decodePack : List Operand → Option Instr
  | [.ints v] => (coloursOf v).map .pack
  | _ => none

def decodeUpdate : List Operand → Option Instr
  | [.bytes frame] => some (.update frame)
  | _ => none

def decodeSendCommand : List Operand → Option Instr
  | [.int op, .bytes data] => (byteOf op).map fun o => .sendCommand o data
  | _ => none

def decodeAwaitReady : List Operand → Option Instr
  | [.int timeout] => (durationOf timeout).map .awaitReady
  | _ => none

def decodeWrite : List Operand → Option Instr
  | [.int isData, .bytes bytes] => (flagOf isData).map fun d => .write d bytes
  | _ => none

/-! ## Requests and wire opcodes -/

/-- The selector table of 30_encoding.md R107: the operand decoder of the operation an OPSEL selects.
Every other value, 0x00 included, selects none. -/
def operandDecoder (opsel : Byte) : Option (List Operand → Option Instr) :=
  match opsel.toNat with
  | 0x01 => some decodeSetPixel
  | 0x02 => some decodeSetImage
  | 0x03 => some decodeSetBorder
  | 0x04 => some (decodeNoOperand .showPanel)
  | 0x05 => some (decodeNoOperand .setup)
  | 0x06 => some decodeSetHflip
  | 0x07 => some decodeSetVflip
  | 0x08 => some decodeSetRotation
  | 0x10 => some decodeBlend
  | 0x11 => some decodeBlend24
  | 0x12 => some decodeQuantize
  | 0x13 => some decodeRender
  | 0x14 => some decodePack
  | 0x15 => some decodeUpdate
  | 0x16 => some decodeSendCommand
  | 0x17 => some decodeAwaitReady
  | 0x18 => some decodeWrite
  | _ => none

/-- Decode a request (30_encoding.md R107, R108). -/
def decodeRequest (r : Request) : Except DecodeError Instr :=
  match operandDecoder r.opsel with
  | none => .error (.unknownOpsel r.opsel)
  | some f =>
    match f r.operands with
    | none => .error (.badOperands r.opsel)
    | some i => if i.wf then .ok i else .error (.illFormed r.opsel)

/-- The wire command of an opcode byte (30_encoding.md R93). -/
def wireCommandOf (op : Byte) : Option WireCommand :=
  if op = config.opTres then some .tres
  else if op = config.opPsr then some .psr
  else if op = config.opPwr then some .pwr
  else if op = config.opPll then some .pll
  else if op = config.opTse then some .tse
  else if op = config.opCdi then some .cdi
  else if op = config.opTcon then some .tcon
  else if op = config.opDam then some .dam
  else if op = config.opPws then some .pws
  else if op = config.opPfs then some .pfs
  else if op = config.opDtm1 then some .dtm1
  else if op = config.opPon then some .pon
  else if op = config.opDrf then some .drf
  else if op = config.opPof then some .pof
  else none

/-- Decode an encoded instruction of either format. -/
def decode : Encoded → Except DecodeError Instr
  | .request r => decodeRequest r
  | .wire op =>
    match wireCommandOf op with
    | some c => .ok (Instr.ofWire c)
    | none => .error (.unknownOpcode op)

/-! ## The encoder -/

/-- The opcode byte of a wire command (30_encoding.md R93). -/
def WireCommand.opcode : WireCommand → Byte
  | .tres => config.opTres
  | .psr => config.opPsr
  | .pwr => config.opPwr
  | .pll => config.opPll
  | .tse => config.opTse
  | .cdi => config.opCdi
  | .tcon => config.opTcon
  | .dam => config.opDam
  | .pws => config.opPws
  | .pfs => config.opPfs
  | .dtm1 => config.opDtm1
  | .pon => config.opPon
  | .drf => config.opDrf
  | .pof => config.opPof

def intOfFlag (b : Bool) : Int := if b then 1 else 0

/-- The encoding of an instruction (30_encoding.md R93, R107, R108). -/
def encode : Instr → Encoded
  | .setPixel x y colour => .request ⟨0x01, [.int x, .int y, .int colour]⟩
  | .setImage image s => .request ⟨0x02, [.image image, .rat s]⟩
  | .setBorder colour => .request ⟨0x03, [.int colour]⟩
  | .showPanel => .request ⟨0x04, []⟩
  | .setup => .request ⟨0x05, []⟩
  | .setHflip b => .request ⟨0x06, [.int (intOfFlag b)]⟩
  | .setVflip b => .request ⟨0x07, [.int (intOfFlag b)]⟩
  | .setRotation deg => .request ⟨0x08, [.int deg]⟩
  | .blend s => .request ⟨0x10, [.rat s]⟩
  | .blend24 s => .request ⟨0x11, [.rat s]⟩
  | .quantize image pal => .request ⟨0x12, [.image (.rgb image), .triples pal]⟩
  | .render border hf vf rot =>
    .request ⟨0x13, [.int border.toNat, .int (intOfFlag hf), .int (intOfFlag vf), .int rot]⟩
  | .pack v => .request ⟨0x14, [.ints (v.map fun c => (c.toNat : Int))]⟩
  | .update frame => .request ⟨0x15, [.bytes frame]⟩
  | .sendCommand op data => .request ⟨0x16, [.int op.toNat, .bytes data]⟩
  | .awaitReady timeout => .request ⟨0x17, [.int timeout]⟩
  | .write isData bytes => .request ⟨0x18, [.int (intOfFlag isData), .bytes bytes]⟩
  | .tres => .wire WireCommand.tres.opcode
  | .psr => .wire WireCommand.psr.opcode
  | .pwr => .wire WireCommand.pwr.opcode
  | .pll => .wire WireCommand.pll.opcode
  | .tse => .wire WireCommand.tse.opcode
  | .cdi => .wire WireCommand.cdi.opcode
  | .tcon => .wire WireCommand.tcon.opcode
  | .dam => .wire WireCommand.dam.opcode
  | .pws => .wire WireCommand.pws.opcode
  | .pfs => .wire WireCommand.pfs.opcode
  | .dtm1 => .wire WireCommand.dtm1.opcode
  | .pon => .wire WireCommand.pon.opcode
  | .drf => .wire WireCommand.drf.opcode
  | .pof => .wire WireCommand.pof.opcode

/-! ## Commands read back from the wire -/

/-- The number of data bytes of each wire command (30_encoding.md R93). -/
def WireCommand.dataBytes : WireCommand → Nat
  | .tres => 4
  | .psr => config.plPsr.length
  | .pwr => config.plPwr.length
  | .pll => config.plPll.length
  | .tse => config.plTse.length
  | .cdi => 1
  | .tcon => config.plTcon.length
  | .dam => config.plDam.length
  | .pws => config.plPws.length
  | .pfs => config.plPfs.length
  | .dtm1 => frameBytes
  | .pon => 0
  | .drf => 0
  | .pof => 0

/-- One command of a command list: the opcode is one of the fourteen and the data bytes are as many as
that command has (30_encoding.md R91, R93). -/
def decodeCommand (op : Byte) (data : List Byte) : Option WireCommand :=
  match wireCommandOf op with
  | some c => if data.length = c.dataBytes then some c else none
  | none => none

/-! ## The words of the opcode table -/

/-- A bitmap of the panel's size whose every pixel is zero. -/
def zeroBitmap : Bitmap Rgb :=
  ⟨panelWidth, panelHeight, List.replicate panelHeight (List.replicate panelWidth ⟨0, 0, 0⟩)⟩

/-- The operands that go with a selector when every operand is zero, of the size its operation gives
it: numbers 0, sequences empty where their length is free, an image of size 0 by 0 where the image
carries its size, a black bitmap and a zero frame where the size is fixed (log 5). -/
def zeroOperands (opsel : Byte) : Option (List Operand) :=
  match opsel.toNat with
  | 0x01 => some [.int 0, .int 0, .int 0]
  | 0x02 => some [.image (.rgb ⟨0, 0, []⟩), .rat 0]
  | 0x03 => some [.int 0]
  | 0x04 => some []
  | 0x05 => some []
  | 0x06 => some [.int 0]
  | 0x07 => some [.int 0]
  | 0x08 => some [.int 0]
  | 0x10 => some [.rat 0]
  | 0x11 => some [.rat 0]
  | 0x12 => some [.image (.rgb zeroBitmap), .triples (List.replicate 8 ⟨0, 0, 0⟩)]
  | 0x13 => some [.int 0, .int 0, .int 0, .int 0]
  | 0x14 => some [.ints []]
  | 0x15 => some [.bytes (List.replicate frameBytes 0)]
  | 0x16 => some [.int 0, .bytes []]
  | 0x17 => some [.int 0]
  | 0x18 => some [.int 0, .bytes []]
  | _ => none

/-- The encoded instruction a word of the opcode table stands for: an 8-bit value that selects a block
operation is a request with zero operands, any other 8-bit value is an opcode on the wire. Six numbers
(0x01, 0x02, 0x03, 0x04, 0x10, 0x12) stand in both formats; the table's word alone does not say which is
meant, and the request is taken. DESIGN CHOICE (log 4). -/
def encodedOfTableWord (nbits w : Nat) : Option Encoded :=
  if nbits = 8 ∧ w < 256 then
    match zeroOperands (BitVec.ofNat 8 w) with
    | some ops => some (.request ⟨BitVec.ofNat 8 w, ops⟩)
    | none => some (.wire (BitVec.ofNat 8 w))
  else none

/-- What the decoder reads from a word of spec/opcode_table.json. -/
def decodeTableWord (nbits w : Nat) : Option Instr :=
  match encodedOfTableWord nbits w with
  | some e =>
    match decode e with
    | .ok i => some i
    | .error _ => none
  | none => none

end Sys2Proof
end

