-- ==== Sys2Proof/Machine/Transport.lean ====
section
/-! DEFINITION. The Chunked SPI Transport: WRITE (45_transport.md). -/

namespace Sys2Proof.Machine

/-- `ceil(n / CHUNK_SIZE)`, the number of transfers of a logical write (45_transport.md R242). -/
def numChunks (n : Nat) : Nat := (n + config.chunkSize - 1) / config.chunkSize

/-- The bytes of each transfer: chunk `k` is `bytes[k*CHUNK_SIZE .. min((k+1)*CHUNK_SIZE, n))`
(45_transport.md R240). -/
def chunks (bytes : List Byte) : List (List Byte) :=
  (List.range (numChunks bytes.length)).map fun k =>
    (bytes.drop (k * config.chunkSize)).take config.chunkSize

/-- The transfers in order, up to the first that fails (45_transport.md R246). -/
def State.xferAll : List (List Byte) → State → Ended
  | [], s => (s, .ok)
  | c :: cs, s => andThen (s.xfer c) (State.xferAll cs)

/-- `WRITE(is_data, bytes)` (45_transport.md R240). After a failed transfer nothing more is done:
chip-select stays asserted (R247). -/
def State.logicalWrite (isData : Bool) (bytes : List Byte) (s : State) : Ended :=
  andThen
    (State.xferAll (chunks bytes)
      ((s.driveCs config.csAsserted).driveDc
        (if isData then config.dataLevel else config.commandLevel)))
    fun s => (s.driveCs config.csDeasserted, .ok)

/-- WRITE(is_data, bytes) as an operation of its own (45_transport.md R240). -/
def execWrite (isData : Bool) (bytes : List Byte) (s : State) : Answer :=
  whenIdle s fun s => .next (settle (s.logicalWrite isData bytes))

end Sys2Proof.Machine
end

