-- ==== Sys2Proof/Machine/Driver.lean ====
section
/-! DEFINITION. The Protocol Driver's two primitives: AWAIT_READY and SEND_COMMAND
(43_protocol_driver.md R190, R194). -/

namespace Sys2Proof.Machine

/-- The poll loop of AWAIT_READY (43_protocol_driver.md R190), with a bound on the samples left. The wait
began at `t0`. -/
def State.awaitLoop (timeout t0 : Nat) : Nat → State → Ended
  | 0, s => (s, .busyTimeout)
  | fuel + 1, s =>
    if s.sample.1 then (s.sample.2, .ok)
    else
      if timeout ≤ (s.sample.2.delay config.pollInterval).timer - t0 then
        (s.sample.2.delay config.pollInterval, .busyTimeout)
      else State.awaitLoop timeout t0 fuel (s.sample.2.delay config.pollInterval)

/-- `N_MAX = ceil(timeout / POLL_INTERVAL)`, and at least 1, for the first sample is taken before the
first test of the timeout (43_protocol_driver.md R190, R191). DEDUCED for a timeout of 0 (log 26). -/
def maxSamples (timeout : Duration) : Nat :=
  max 1 ((timeout + config.pollInterval - 1) / config.pollInterval)

/-- `AWAIT_READY(timeout)` (43_protocol_driver.md R190). The bound of `maxSamples` is never what ends the
loop: every sleep lasts at least `POLL_INTERVAL` (R191). -/
def State.awaitReady (timeout : Duration) (s : State) : Ended :=
  s.awaitLoop timeout s.timer (maxSamples timeout)

/-- `SEND_COMMAND(op, data)` (43_protocol_driver.md R194): the opcode write, then the data write if there
is data; a failed opcode write ends it. -/
def State.sendCommand (op : Byte) (data : List Byte) (s : State) : Ended :=
  andThen (s.logicalWrite false [op]) fun s =>
    if data = [] then (s, .ok) else s.logicalWrite true data

/-- AWAIT_READY(timeout) as an operation of its own (43_protocol_driver.md R190). -/
def execAwaitReady (timeout : Duration) (s : State) : Answer :=
  whenIdle s fun s => .next (settle (s.awaitReady timeout))

/-- SEND_COMMAND(op, data) as an operation of its own (43_protocol_driver.md R194). -/
def execSendCommand (op : Byte) (data : List Byte) (s : State) : Answer :=
  whenIdle s fun s => .next (settle (s.sendCommand op data))

end Sys2Proof.Machine
end

