-- ==== Sys2Proof/Machine/Wire.lean ====
section
/-! DEFINITION. The fourteen wire commands (44_wire_commands.md): which bytes leave, and what the
sequencer does next. What a command does inside the panel controller is not the block's behaviour. -/

namespace Sys2Proof.Machine

/-- A 16-bit value as two bytes, high byte first (20_memory.md R63). -/
def bigEndian16 (n : Nat) : List Byte := [BitVec.ofNat 8 (n / 256), BitVec.ofNat 8 n]

/-- The CDI payload byte `(BORDER << 5) | 0x17` (30_encoding.md R96). -/
def cdiByte (border : Colour) : Byte := (border.setWidth 8 <<< 5) ||| 0x17

/-- The data bytes of a command, taken from the state as it is when the command is sent
(30_encoding.md R93, R94, R96, R97). -/
def payload (c : WireCommand) (s : State) : List Byte :=
  match c with
  | .tres => bigEndian16 panelWidth ++ bigEndian16 panelHeight
  | .psr => config.plPsr
  | .pwr => config.plPwr
  | .pll => config.plPll
  | .tse => config.plTse
  | .cdi => [cdiByte s.border]
  | .tcon => config.plTcon
  | .dam => config.plDam
  | .pws => config.plPws
  | .pfs => config.plPfs
  | .dtm1 => s.frame
  | .pon => []
  | .drf => []
  | .pof => []

/-- Send a wire command by SEND_COMMAND with its opcode and payload (44_wire_commands.md). -/
def State.sendWire (c : WireCommand) (s : State) : Ended := s.sendCommand c.opcode (payload c s)

/-- After the send a running sequence goes on to the next position or takes the error (43 R201); on an
Idle block the command is a SEND_COMMAND requested alone and its result is reported (log 27). -/
def State.runWire (c : WireCommand) (s : State) : State :=
  if s.phase = .idle then settle (s.sendWire c) else settleMicro (s.sendWire c)

/-- TRES, "panel resolution" (44_wire_commands.md R220). -/
def execTres (s : State) : Answer := .next (s.runWire .tres)

/-- PSR, "panel configuration" (44_wire_commands.md R221). -/
def execPsr (s : State) : Answer := .next (s.runWire .psr)

/-- PWR, "power configuration" (44_wire_commands.md R222). -/
def execPwr (s : State) : Answer := .next (s.runWire .pwr)

/-- PLL (44_wire_commands.md R223). -/
def execPll (s : State) : Answer := .next (s.runWire .pll)

/-- TSE, "temperature-sensor-enable" (44_wire_commands.md R224). -/
def execTse (s : State) : Answer := .next (s.runWire .tse)

/-- CDI, "border/VCOM configuration" (44_wire_commands.md R225). -/
def execCdi (s : State) : Answer := .next (s.runWire .cdi)

/-- TCON, "TCON timing" (44_wire_commands.md R226). -/
def execTcon (s : State) : Answer := .next (s.runWire .tcon)

/-- DAM, "data-access mode" (44_wire_commands.md R227). -/
def execDam (s : State) : Answer := .next (s.runWire .dam)

/-- PWS, "power-saving" (44_wire_commands.md R228). -/
def execPws (s : State) : Answer := .next (s.runWire .pws)

/-- PFS, "power-off-sequence settings" (44_wire_commands.md R229). -/
def execPfs (s : State) : Answer := .next (s.runWire .pfs)

/-- DTM1, "data-transfer-start" with the packed frame (44_wire_commands.md R230). -/
def execDtm1 (s : State) : Answer := .next (s.runWire .dtm1)

/-- PON, "power-on" (44_wire_commands.md R231). -/
def execPon (s : State) : Answer := .next (s.runWire .pon)

/-- DRF, "display-refresh" (44_wire_commands.md R232). -/
def execDrf (s : State) : Answer := .next (s.runWire .drf)

/-- POF, "power-off" (44_wire_commands.md R233). -/
def execPof (s : State) : Answer := .next (s.runWire .pof)

end Sys2Proof.Machine
end

