-- ==== Sys2Proof/Machine/Sequencer.lean ====
section
/-! DEFINITION. The fixed microprogram and the three operations that run it: SETUP, UPDATE, SHOW
(43_protocol_driver.md R196, R200 to R204). -/

namespace Sys2Proof.Machine

/-- One position of the microprogram (43_protocol_driver.md R200). -/
inductive MicroOp where
  | driveReset (level : Bool)
  | wait (d : Duration)
  | await
  | send (c : WireCommand)
  | endSetup
  | endUpdate
deriving DecidableEq, Repr

/-- The 25 positions of the microprogram (43_protocol_driver.md R200). -/
def microOp (n : Fin 25) : MicroOp :=
  match n.val with
  | 0 => .driveReset config.resetLow
  | 1 => .wait config.tResetLow
  | 2 => .driveReset config.resetHigh
  | 3 => .wait config.tResetHigh
  | 4 => .await
  | 5 => .send .tres
  | 6 => .send .psr
  | 7 => .send .pwr
  | 8 => .send .pll
  | 9 => .send .tse
  | 10 => .send .cdi
  | 11 => .send .tcon
  | 12 => .send .dam
  | 13 => .send .pws
  | 14 => .send .pfs
  | 15 => .endSetup
  | 16 => .send .dtm1
  | 17 => .await
  | 18 => .send .pon
  | 19 => .await
  | 20 => .send .drf
  | 21 => .await
  | 22 => .send .pof
  | 23 => .await
  | _ => .endUpdate

/-- The position at which a wire command is sent (44_wire_commands.md R220 to R233). -/
def microPosition : WireCommand → Fin 25
  | .tres => 5
  | .psr => 6
  | .pwr => 7
  | .pll => 8
  | .tse => 9
  | .cdi => 10
  | .tcon => 11
  | .dam => 12
  | .pws => 13
  | .pfs => 14
  | .dtm1 => 16
  | .pon => 18
  | .drf => 20
  | .pof => 22

/-- One action of the microprogram (43_protocol_driver.md R200, R201). -/
def State.microAction (op : MicroOp) (s : State) : State :=
  match op with
  | .driveReset b => (s.driveReset b).advance
  | .wait d => (s.delay d).advance
  | .await => settleMicro (s.awaitReady config.busyTimeout)
  | .send c => settleMicro (s.sendWire c)
  | .endSetup => if s.inUpdate then s.advance else s.finish
  | .endUpdate => s.finish

/-- The micro-step at `STEP`. -/
def State.microStep (s : State) : State := s.microAction (microOp s.stepReg)

/-- At most `n` micro-steps, up to the end of the sequence. -/
def State.runSequence : Nat → State → State
  | 0, s => s
  | n + 1, s => if s.phase = .idle then s else State.runSequence n s.microStep

/-- A whole sequence from position 0: each of the 25 positions is visited at most once (43 R201). -/
def State.sequence (inUpdate : Bool) (frame : List Byte) (s : State) : State :=
  (s.start inUpdate frame).runSequence 25

/-- SETUP() (43_protocol_driver.md R196): positions 0 to 15. -/
def execSetup (s : State) : Answer :=
  whenIdle s fun s => .next (s.sequence false [])

/-- UPDATE(frame) (43_protocol_driver.md R202): positions 0 to 24. A frame of another length than
`FRAME_BYTES` is not a well-formed operand. -/
def execUpdate (frame : List Byte) (s : State) : Answer :=
  whenIdle s fun s =>
    if frame.length = frameBytes then .next (s.sequence true frame)
    else .refused (.illFormed "UPDATE")

/-- The frame SHOW sends: the buffer rendered under the orientation registers and packed
(43_protocol_driver.md R204). -/
def State.shownFrame (s : State) : List Byte :=
  packIndices (renderSequence s.fb s.hflip s.vflip (quarterTurns s.rotation))

/-- SHOW() (43_protocol_driver.md R204): RENDER, PACK, UPDATE. The rendered sequence has 268800 elements,
so PACK cannot fail and the frame has `FRAME_BYTES` bytes. -/
def execShow (s : State) : Answer :=
  whenIdle s fun s => .next (s.sequence true s.shownFrame)

end Sys2Proof.Machine
end

