-- ==== Sys2Proof/Machine/Dispatch.lean ====
section
/-! DEFINITION. The meaning of every instruction, one arm per constructor. -/

namespace Sys2Proof.Machine

def exec (i : Instr) (s : State) : Host.Outcome State Fault Refusal :=
  match i with
  | .setPixel x y colour => Sys2Proof.Machine.execSetPixel x y colour s
  | .setImage image sat => Sys2Proof.Machine.execSetImage image sat s
  | .setBorder colour => Sys2Proof.Machine.execSetBorder colour s
  | .showPanel => Sys2Proof.Machine.execShow s
  | .setup => Sys2Proof.Machine.execSetup s
  | .setHflip b => Sys2Proof.Machine.execSetHflip b s
  | .setVflip b => Sys2Proof.Machine.execSetVflip b s
  | .setRotation deg => Sys2Proof.Machine.execSetRotation deg s
  | .blend sat => Sys2Proof.Machine.execBlend sat s
  | .blend24 sat => Sys2Proof.Machine.execBlend24 sat s
  | .quantize image pal => Sys2Proof.Machine.execQuantize image pal s
  | .render border hf vf rot => Sys2Proof.Machine.execRender border hf vf rot s
  | .pack v => Sys2Proof.Machine.execPack v s
  | .update frame => Sys2Proof.Machine.execUpdate frame s
  | .sendCommand op data => Sys2Proof.Machine.execSendCommand op data s
  | .awaitReady timeout => Sys2Proof.Machine.execAwaitReady timeout s
  | .write isData bytes => Sys2Proof.Machine.execWrite isData bytes s
  | .tres => Sys2Proof.Machine.execTres s
  | .psr => Sys2Proof.Machine.execPsr s
  | .pwr => Sys2Proof.Machine.execPwr s
  | .pll => Sys2Proof.Machine.execPll s
  | .tse => Sys2Proof.Machine.execTse s
  | .cdi => Sys2Proof.Machine.execCdi s
  | .tcon => Sys2Proof.Machine.execTcon s
  | .dam => Sys2Proof.Machine.execDam s
  | .pws => Sys2Proof.Machine.execPws s
  | .pfs => Sys2Proof.Machine.execPfs s
  | .dtm1 => Sys2Proof.Machine.execDtm1 s
  | .pon => Sys2Proof.Machine.execPon s
  | .drf => Sys2Proof.Machine.execDrf s
  | .pof => Sys2Proof.Machine.execPof s

end Sys2Proof.Machine
end

