-- ==== Sys2Proof/Machine/Fetch.lean ====
section
/-! DEFINITION. Where the next instruction comes from: the waiting requests while the block is Idle,
the microprogram while a sequence runs. -/

namespace Sys2Proof.Machine

/-- The operations the host may request (30_encoding.md R106, 70_reset_and_hazards.md R304). -/
def hostCallable : Instr → Bool
  | .setPixel _ _ _ | .setImage _ _ | .setBorder _ | .showPanel | .setup | .setHflip _ | .setVflip _
  | .setRotation _ => true
  | .blend _ | .blend24 _ | .quantize _ _ | .render _ _ _ _ | .pack _ | .update _ | .sendCommand _ _
  | .awaitReady _ | .write _ _ => false
  | .tres | .psr | .pwr | .pll | .tse | .cdi | .tcon | .dam | .pws | .pfs | .dtm1 | .pon | .drf
  | .pof => false

/-- The operations a caller may request: the host its eight, the bench every one (92_eei_decisions.md D26).
That there is such a bench is a DESIGN CHOICE (log 36). -/
def Caller.mayRequest (c : Caller) (i : Instr) : Bool :=
  match c with
  | .host => hostCallable i
  | .bench => true

/-- What the machine does next. -/
inductive Fetched where
  /-- Nothing: Idle, and no request waits (70_reset_and_hazards.md R313). -/
  | nothing
  /-- An instruction, and the state with its request taken. -/
  | instr (i : Instr) (s : State)
  /-- A position of the microprogram that is no instruction of the opcode table. -/
  | micro (op : MicroOp)
  /-- A request that is no instruction. -/
  | bad (e : DecodeError)
  /-- A request of the host for an operation that is not host-callable. -/
  | notCallable (opsel : Byte)
deriving DecidableEq, Repr

/-- Fetch: the first waiting request while Idle (70 R313), if its caller may make it (70 R304); the
micro-step at `STEP` while a sequence runs, and no request (20 R80). -/
def State.fetch (s : State) : Fetched :=
  if s.phase = .idle then
    match s.requests with
    | [] => .nothing
    | r :: rs =>
      match decode (.request r.request) with
      | .ok i => if r.caller.mayRequest i then .instr i { s with requests := rs }
        else .notCallable r.request.opsel
      | .error e => .bad e
  else
    match microOp s.stepReg with
    | .send c => .instr (Instr.ofWire c) s
    | op => .micro op

/-- A request with the caller that may make it: the bench for the selectors of the component operations, 0x10
to 0x18, and the host for any other (30_encoding.md R106, R107; log 36). -/
def callOf (r : Request) : Call :=
  ⟨if 0x10 ≤ r.opsel.toNat ∧ r.opsel.toNat ≤ 0x18 then .bench else .host, r⟩

/-- Put an encoded instruction where the next fetch takes it: a request becomes the first waiting request
of an Idle block; a wire opcode selects the microprogram position that sends it. A byte that is no opcode
is put as a request, which the decoder refuses. -/
def State.place (e : Encoded) (s : State) : State :=
  match e with
  | .request r => { s with phase := .idle, requests := callOf r :: s.requests }
  | .wire op =>
    match wireCommandOf op with
    | some c => { s with phase := phaseOf (microPosition c), stepReg := microPosition c }
    | none => { s with phase := .idle, requests := callOf ⟨op, []⟩ :: s.requests }

end Sys2Proof.Machine
end

