-- ==== Sys2Proof/Machine/Step.lean ====
section
/-! DEFINITION. One step of the machine. -/

namespace Sys2Proof.Machine

/-- One step (log 1): an Idle block executes the first waiting request to completion (20 R76), or stays as
it is when none waits (70 R313), and refuses a request that is no instruction (30 R107) or that its caller
may not make (70 R304); a block with a running sequence executes the micro-step at `STEP`
(43 R201). -/
def step (s : State) : Host.Outcome State Fault Refusal :=
  match s.fetch with
  | .nothing => .next s
  | .instr i t => exec i t
  | .micro op => .next (s.microAction op)
  | .bad e => .refused (.undecodable e)
  | .notCallable opsel => .refused (.notHostCallable opsel)

/-- The state whose next step runs the instruction of an opcode-table word (log 2). A word that stands for
no encoded instruction leaves the state as it is. -/
def State.withFetchWord (s : State) (nbits w : Nat) : State :=
  match encodedOfTableWord nbits w with
  | some e => s.place e
  | none => s

end Sys2Proof.Machine
end

