-- ==== Sys2Proof/Machine/Flags.lean ====
section
/-! DEFINITION. The block has no condition codes and no status flags set as a side effect (10_state.md
R37). Its one status is RESULT; this is the number of each result code (60_exceptions.md R260). -/

namespace Sys2Proof.Machine

/-- The number of a result code (60_exceptions.md R260). -/
def ResultCode.code : ResultCode → Nat
  | .ok => 0
  | .sizeMismatch => 1
  | .busyTimeout => 2
  | .transportFailure => 3
  | .outOfBounds => 4
  | .invalidArgument => 5

end Sys2Proof.Machine
end

