-- ==== Sys2Proof/Machine/Trace.lean ====
section
/-! DEFINITION. What a reader of TRACE sees: the level each pin was last driven to, the byte stream and
the command list (10_state.md R35, R42; 30_encoding.md R91). -/

namespace Sys2Proof.Machine

/-- The level RESET_OUT was last driven to, from level `b` on. -/
def resetLevel : Bool → List Event → Bool
  | b, [] => b
  | _, .rst l :: es => resetLevel l es
  | b, _ :: es => resetLevel b es

/-- The level DC_OUT was last driven to, from level `b` on. -/
def dcLevel : Bool → List Event → Bool
  | b, [] => b
  | _, .dc l :: es => dcLevel l es
  | b, _ :: es => dcLevel b es

/-- The level CS_OUT was last driven to, from level `b` on. -/
def csLevel : Bool → List Event → Bool
  | b, [] => b
  | _, .cs l :: es => csLevel l es
  | b, _ :: es => csLevel b es

/-- The byte stream on the SPI channel: the bytes of every XFER, each tagged with the DC_OUT level at its
transfer, DC_OUT being at level `b` first (10_state.md R42). -/
def byteStream : Bool → List Event → List (Bool × Byte)
  | _, [] => []
  | _, .dc l :: es => byteStream l es
  | b, .xfer bytes :: es => bytes.map (fun x => (b, x)) ++ byteStream b es
  | b, _ :: es => byteStream b es

/-- The command list: the byte stream cut at every byte tagged with the command level (30_encoding.md
R91). Data bytes before the first command are dropped. -/
def cutCommands (commandLevel : Bool) : List (Bool × Byte) → List (Byte × List Byte)
  | [] => []
  | (l, x) :: rest =>
    if l = commandLevel then
      (x, (rest.takeWhile fun p => decide (p.1 ≠ commandLevel)).map Prod.snd)
        :: cutCommands commandLevel rest
    else cutCommands commandLevel rest

/-- The samples of BUSY_IN in a stretch of trace, in order. -/
def polls : List Event → List Bool
  | [] => []
  | .poll b :: es => b :: polls es
  | _ :: es => polls es

end Sys2Proof.Machine
end

