-- ==== Sys2Proof/Safety.lean ====
section
/-! DEFINITION. The terms in which claims are made: invariants of the block, environments that answer
well, and the event sequences the rules write out. -/

namespace Sys2Proof.Machine

/-! ## Invariants -/

/-- The sequencer registers agree (10_state.md R30, R31, R32, R38): Idle has position 0, no link and no
frame in flight; a running sequence has the phase of its position, stays at or below position 15 when it
is a lone SETUP, and holds a whole frame when it is an UPDATE. -/
abbrev State.SequencerOk (s : State) : Prop :=
  if s.phase = .idle then s.stepReg = 0 ∧ s.inUpdate = false ∧ s.frame = []
  else s.phase = phaseOf s.stepReg ∧ (s.inUpdate = false → s.stepReg.val ≤ 15) ∧
    (s.inUpdate = true → s.frame.length = frameBytes)

/-- The output pins have the level TRACE says they were last driven to, or their reset level
(10_state.md R33, R42). -/
abbrev State.PinsOk (s : State) : Prop :=
  s.resetOut = resetLevel State.reset.resetOut s.trace ∧
  s.dcOut = dcLevel State.reset.dcOut s.trace ∧
  s.csOut = csLevel State.reset.csOut s.trace

/-- The last SPI transaction of a trace was one the transport reported as failed (`b` when there is
none). -/
def lastTransferFailed : Bool → List Event → Bool
  | b, [] => b
  | _, .xfer _ :: es => lastTransferFailed false es
  | _, .xfail _ :: es => lastTransferFailed true es
  | b, _ :: es => lastTransferFailed b es

/-- Between operations chip-select is deasserted, except after a failed transfer (45_transport.md R241,
R247). -/
abbrev State.ChipSelectOk (s : State) : Prop :=
  s.csOut = config.csAsserted → lastTransferFailed false s.trace = true

/-- ROTATION holds a multiple of 90 (10_state.md R28). -/
abbrev State.RotationOk (s : State) : Prop := s.rotation % 90 = 0

/-- The frame buffer is in canonical form (10_state.md R23). -/
abbrev State.MemoryOk (s : State) : Prop := s.fb.wf = true

/-- The invariant of the block. -/
abbrev State.Inv (s : State) : Prop :=
  s.MemoryOk ∧ s.RotationOk ∧ s.SequencerOk ∧ s.PinsOk ∧ s.ChipSelectOk

/-! ## Environments -/

/-- An input after `n` looks. -/
def Input.after {α : Type} : Nat → Input α → Input α
  | 0, i => i
  | n + 1, i => Input.after n i.look.2

/-- Every coming look at the input finds the value `v`. -/
abbrev Input.always {α : Type} (v : α) (i : Input α) : Prop := i.now = v ∧ ∀ w ∈ i.next, w = v

/-- Every coming transfer succeeds (45_transport.md R246). -/
abbrev State.busGood (s : State) : Prop := s.bus.always true

/-- Every coming sample of BUSY_IN reads 1: each wait is answered Ready(0) (43_protocol_driver.md R192). -/
abbrev State.pinReady (s : State) : Prop := s.busyIn.always true

/-- BUSY_IN never reads 1 (43_protocol_driver.md R192, 95 P4). -/
abbrev State.pinStuck (s : State) : Prop := s.busyIn.always false

/-! ## Event sequences the rules write out -/

/-- The events of a logical write that succeeds (45_transport.md R240). -/
def writeEvents (isData : Bool) (bytes : List Byte) : List Event :=
  [.cs config.csAsserted, .dc (if isData then config.dataLevel else config.commandLevel)] ++
    (chunks bytes).map .xfer ++ [.cs config.csDeasserted]

/-- The events of a wire command that is sent whole (30_encoding.md R90, 43_protocol_driver.md R194). -/
def commandEvents (op : Byte) (data : List Byte) : List Event :=
  writeEvents false [op] ++ if data = [] then [] else writeEvents true data

/-- The reset pulse (43_protocol_driver.md R200, positions 0 to 3). -/
def resetPulse : List Event :=
  [.rst false, .delay config.tResetLow, .rst true, .delay config.tResetHigh]

/-- The ten configuration commands of SETUP in their order (43_protocol_driver.md R200, positions 5 to
14; 30_encoding.md R93, R94, R96). -/
def configEvents (border : Colour) : List Event :=
  commandEvents config.opTres [0x02, 0x58, 0x01, 0xC0] ++
  commandEvents config.opPsr config.plPsr ++
  commandEvents config.opPwr config.plPwr ++
  commandEvents config.opPll config.plPll ++
  commandEvents config.opTse config.plTse ++
  commandEvents config.opCdi [(border.setWidth 8 <<< 5) ||| 0x17] ++
  commandEvents config.opTcon config.plTcon ++
  commandEvents config.opDam config.plDam ++
  commandEvents config.opPws config.plPws ++
  commandEvents config.opPfs config.plPfs

/-- The trace of a SETUP whose wait finds the pin at 1 and whose transfers succeed
(43_protocol_driver.md R196, 95 V-DRV-1). -/
def setupEvents (border : Colour) : List Event := resetPulse ++ [.poll true] ++ configEvents border

/-- The trace of an UPDATE whose waits all find the pin at 1 and whose transfers succeed
(43_protocol_driver.md R202, 95 V-DRV-3). -/
def updateEvents (border : Colour) (frame : List Byte) : List Event :=
  setupEvents border ++ commandEvents config.opDtm1 frame ++ [.poll true] ++
  commandEvents config.opPon [] ++ [.poll true] ++ commandEvents config.opDrf [] ++ [.poll true] ++
  commandEvents config.opPof [] ++ [.poll true]

/-- `m` samples of 0, each followed by the poll sleep (43_protocol_driver.md R192). -/
def pollPairs : Nat → List Event
  | 0 => []
  | m + 1 => [.poll false, .delay config.pollInterval] ++ pollPairs m

/-! ## RENDER as an index map -/

/-- The source cell `(x, y)` of output index `n` (41_framebuffer.md R161). -/
def sourceCell (hf vf : Bool) (k n : Nat) : Nat × Nat :=
  let c := if k % 2 = 0 then 600 else 448
  let i := n / c
  let j := n % c
  let xy :=
    match k with
    | 0 => (j, i)
    | 1 => (599 - i, j)
    | 2 => (599 - j, 447 - i)
    | _ => (i, 447 - j)
  (if hf then 599 - xy.1 else xy.1, if vf then 447 - xy.2 else xy.2)

/-! ## Kinds of instruction -/

/-- The block operations of format HOSTOP (30_encoding.md R106), as against the wire commands. -/
def isBlockOperation : Instr → Bool
  | .setPixel _ _ _ | .setImage _ _ | .setBorder _ | .showPanel | .setup | .setHflip _ | .setVflip _
  | .setRotation _ | .blend _ | .blend24 _ | .quantize _ _ | .render _ _ _ _ | .pack _ | .update _
  | .sendCommand _ _ | .awaitReady _ | .write _ _ => true
  | .tres | .psr | .pwr | .pll | .tse | .cdi | .tcon | .dam | .pws | .pfs | .dtm1 | .pon | .drf
  | .pof => false

/-- The operations that produce pin or bus events (43_protocol_driver.md R204: of the host-callable ones
only SHOW and SETUP). -/
def touchesPins : Instr → Bool
  | .showPanel | .setup | .update _ | .sendCommand _ _ | .awaitReady _ | .write _ _ => true
  | .setPixel _ _ _ | .setImage _ _ | .setBorder _ | .setHflip _ | .setVflip _
  | .setRotation _ | .blend _ | .blend24 _ | .quantize _ _ | .render _ _ _ _ | .pack _ => false
  | .tres | .psr | .pwr | .pll | .tse | .cdi | .tcon | .dam | .pws | .pfs | .dtm1 | .pon | .drf
  | .pof => true

end Sys2Proof.Machine
end

