-- ==== Sys2Proof/Certificates/Slice0/Obligations.lean ====
section
/-! DEFINITION. The statements for the provers. Each docstring names the rules of spec/ it formalises and,
where the spec decided a point its source leaves open, the decision D<n> of 92_eei_decisions.md. -/

open Sys2Proof Sys2Proof.Machine

/-! ## Encodings and fetching -/

/-- Decoding an encoded well-formed instruction gives it back: no operand of a request and no opcode byte
is dropped (30_encoding.md R93, R107, R108; the operand forms are log 5). It uses that the fourteen opcode
bytes are pairwise different, which holds of the defaults of D3 (log 12). -/
def Obligations.DecodeInvertsEncode : Prop :=
  ∀ i : Instr, i.wf = true → decode (encode i) = .ok i

/-- Some words of the spec's tables decode to the instructions they stand for (30_encoding.md R93, R107;
the opcode bytes are the defaults of D3). -/
def Obligations.KnownWordsDecode : Prop :=
  decode (.request ⟨0x01, [.int 10, .int 20, .int 9]⟩) = .ok (.setPixel 10 20 9) ∧
  decode (.request ⟨0x04, []⟩) = .ok .showPanel ∧
  decode (.request ⟨0x07, [.int 1]⟩) = .ok (.setVflip true) ∧
  decode (.request ⟨0x11, [.rat (1/2)]⟩) = .ok (.blend24 (1/2)) ∧
  decode (.request ⟨0x14, [.ints [4, 4, 0, 7]]⟩) = .ok (.pack [4, 4, 0, 7]) ∧
  decode (.request ⟨0x16, [.int 0x61, .bytes [0x02, 0x58, 0x01, 0xC0]]⟩) =
    .ok (.sendCommand 0x61 [0x02, 0x58, 0x01, 0xC0]) ∧
  decode (.request ⟨0x17, [.int 15000]⟩) = .ok (.awaitReady 15000) ∧
  decode (.request ⟨0x18, [.int 0, .bytes [0x04]]⟩) = .ok (.write false [0x04]) ∧
  decode (.wire 0x61) = .ok .tres ∧
  decode (.wire 0x50) = .ok .cdi ∧
  decode (.wire 0xE3) = .ok .pws ∧
  decode (.wire 0x10) = .ok .dtm1 ∧
  decode (.wire 0x12) = .ok .drf

/-- A selector outside 0x01..0x08 and 0x10..0x18 selects no operation: it is refused by name, and so is the
step of an Idle block that finds such a request first, whoever makes it (30_encoding.md R107, D1). -/
def Obligations.UnknownSelectorIsRefused : Prop :=
  ∀ (s : State) (q : Call) (rs : List Call),
    ¬ (1 ≤ q.request.opsel.toNat ∧ q.request.opsel.toNat ≤ 8) →
    ¬ (0x10 ≤ q.request.opsel.toNat ∧ q.request.opsel.toNat ≤ 0x18) →
    s.phase = .idle → s.requests = q :: rs →
    decode (.request q.request) = .error (.unknownOpsel q.request.opsel) ∧
    step s = .refused (.undecodable (.unknownOpsel q.request.opsel))

/-- What else is no instruction: a wire byte outside the fourteen opcodes (30_encoding.md R93,
R101; the bytes are the defaults of D3, log 12), a flag of SET_HFLIP or SET_VFLIP outside 0 and 1 and an UPDATE
frame of another length (93 U17), a PACK element outside 0..7 (93 U13), a RENDER rotation that is not a
multiple of 90 (93 U11); and, as the model's choice (log 20), a border of RENDER outside 0..7, a flag of RENDER
or WRITE outside 0 and 1, an opcode of SEND_COMMAND outside 0..255 and a timeout of AWAIT_READY below 0. Each
is refused by name, and a step of an Idle block that finds such a request first is refused with that name. -/
def Obligations.IllFormedEncodingsAreRefused : Prop :=
  (∀ op : Byte, op ∉ ([0x61, 0x00, 0x01, 0x30, 0x41, 0x50, 0x60, 0x65, 0xE3, 0x03, 0x10, 0x04, 0x12, 0x02] :
      List Byte) → decode (.wire op) = .error (.unknownOpcode op)) ∧
  (∀ b : Int, b ≠ 0 → b ≠ 1 →
    decode (.request ⟨0x06, [.int b]⟩) = .error (.badOperands 0x06) ∧
    decode (.request ⟨0x07, [.int b]⟩) = .error (.badOperands 0x07) ∧
    (∀ bytes, decode (.request ⟨0x18, [.int b, .bytes bytes]⟩) = .error (.badOperands 0x18)) ∧
    (∀ border c rot,
      decode (.request ⟨0x13, [.int border, .int b, .int c, .int rot]⟩) = .error (.badOperands 0x13) ∧
      decode (.request ⟨0x13, [.int border, .int c, .int b, .int rot]⟩) = .error (.badOperands 0x13))) ∧
  (∀ n : Int, n < 0 ∨ 7 < n →
    (∀ v, n ∈ v → decode (.request ⟨0x14, [.ints v]⟩) = .error (.badOperands 0x14)) ∧
    (∀ hf vf rot,
      decode (.request ⟨0x13, [.int n, .int hf, .int vf, .int rot]⟩) = .error (.badOperands 0x13))) ∧
  (∀ (n : Int) (data : List Byte), n < 0 ∨ 255 < n →
    decode (.request ⟨0x16, [.int n, .bytes data]⟩) = .error (.badOperands 0x16)) ∧
  (∀ n : Int, n < 0 → decode (.request ⟨0x17, [.int n]⟩) = .error (.badOperands 0x17)) ∧
  (∀ frame : List Byte, frame.length ≠ 134400 →
    decode (.request ⟨0x15, [.bytes frame]⟩) = .error (.illFormed 0x15)) ∧
  (∀ border hf vf rot : Int, 0 ≤ border ∧ border ≤ 7 → hf = 0 ∨ hf = 1 → vf = 0 ∨ vf = 1 → rot % 90 ≠ 0 →
    decode (.request ⟨0x13, [.int border, .int hf, .int vf, .int rot]⟩) = .error (.illFormed 0x13)) ∧
  (∀ (s : State) (q : Call) (rs : List Call) (e : DecodeError), s.phase = .idle → s.requests = q :: rs →
    decode (.request q.request) = .error e → step s = .refused (.undecodable e))

/-- An Idle block whose first waiting request decodes to an instruction, and whose caller may make it,
executes it, the request being taken; with no request waiting it stays as it is (20_memory.md R76, 70 R313;
the request list is the model's, log 2, and so is the caller of a component operation, log 36). -/
def Obligations.StepExecutesDecodedRequest : Prop :=
  (∀ (s : State) (q : Call) (rs : List Call) (i : Instr),
    s.phase = .idle → s.requests = q :: rs → decode (.request q.request) = .ok i →
    q.caller.mayRequest i = true → step s = exec i { s with requests := rs }) ∧
  (∀ s : State, s.phase = .idle → s.requests = [] → step s = .next s)

/-- The host can ask for the operations of selectors 0x01 to 0x08 and for nothing else: a step of an Idle
block executes such a request of the host, and refuses by name its request for a component operation, the
selectors 0x10 to 0x18, with no effect on the block (30_encoding.md R106, R107; 70_reset_and_hazards.md R304;
D26). The same request of the bench is executed, which is the model's choice (log 36). -/
def Obligations.ComponentOperationIsNoHostRequest : Prop :=
  ∀ (s : State) (r : Request) (rs : List Call) (i : Instr),
    s.phase = .idle → decode (.request r) = .ok i →
    (s.requests = ⟨.host, r⟩ :: rs → 1 ≤ r.opsel.toNat ∧ r.opsel.toNat ≤ 8 →
      step s = exec i { s with requests := rs }) ∧
    (s.requests = ⟨.host, r⟩ :: rs → 0x10 ≤ r.opsel.toNat ∧ r.opsel.toNat ≤ 0x18 →
      step s = .refused (.notHostCallable r.opsel)) ∧
    (s.requests = ⟨.bench, r⟩ :: rs → step s = exec i { s with requests := rs })

/-- While a sequence runs a step is the micro-step at STEP, and at the position of a wire command it is
that command's instruction. That a step is one micro-step, an AWAIT_READY included, is the model's choice
(log 1: the spec does not say what the unit of a step is); the microprogram and its order are
43_protocol_driver.md R200 and R201. -/
def Obligations.StepRunsMicroprogram : Prop :=
  (∀ s : State, s.phase ≠ .idle → step s = .next s.microStep) ∧
  (∀ (s : State) (c : WireCommand), s.phase ≠ .idle → s.stepReg = microPosition c →
    step s = exec (Instr.ofWire c) s)

/-- A block operation executed while a sequence runs stops with the fault named for it (92 D25, 93 U9). -/
def Obligations.BlockOperationWhileRunningStops : Prop :=
  ∀ (i : Instr) (s : State), isBlockOperation i = true → s.phase ≠ .idle →
    exec i s = .fault .requestWhileRunning

/-- A well-formed instruction completes on an Idle block: exec answers a next state, whatever the state and
the environment hold. BLEND24 needs every channel of its palette in 0..255 (40_palette.md R133). For the
fourteen wire commands this is the model's choice (log 27): the spec sends a wire command only from the
microprogram. -/
def Obligations.WellFormedInstructionCompletes : Prop :=
  ∀ (i : Instr) (s : State), s.phase = .idle → i.wf = true →
    (∀ q, i = .blend24 q → allBytes (blendPalette q) = true) →
    ∃ t, exec i s = .next t

/-! ## Reset and invariants -/

/-- The state after reset (10_state.md R43): the values the source states (buffer all BLACK, border WHITE)
and those the spec decides (D13, D22, D23). -/
def Obligations.ResetState : Prop :=
  (∀ x y : Nat, x < 600 → y < 448 → State.reset.fb.read (y * 600 + x) = 0) ∧
  State.reset.border = 1 ∧ State.reset.hflip = false ∧ State.reset.vflip = false ∧
  State.reset.rotation = 0 ∧ State.reset.phase = .idle ∧ State.reset.stepReg = 0 ∧
  State.reset.inUpdate = false ∧ State.reset.resetOut = true ∧
  State.reset.dcOut = config.commandLevel ∧ State.reset.csOut = config.csDeasserted ∧
  State.reset.result = .ok ∧ State.reset.trace = []

/-- The invariant holds at reset. -/
def Obligations.ResetMeetsInvariant : Prop := State.reset.Inv

/-- Every step keeps the invariant: the buffer's canonical form, ROTATION a multiple of 90, PHASE a function
of STEP, the pins as TRACE last drove them, and chip-select deasserted except after a failed transfer
(10_state.md R23, R28, R30, R31, R42; 45_transport.md R241). -/
def Obligations.StepKeepsInvariant : Prop :=
  ∀ s t : State, s.Inv → step s = .next t → t.Inv

/-- TRACE is never cleared: every step only appends to it (10_state.md R42). -/
def Obligations.TraceOnlyGrows : Prop :=
  ∀ s t : State, step s = .next t → ∃ es, t.trace = s.trace ++ es

/-- No operation other than SET_PIXEL and SET_IMAGE changes any cell (10_state.md R23). -/
def Obligations.OnlyWritersChangeBuffer : Prop :=
  ∀ (i : Instr) (s t : State),
    (∀ x y c, i ≠ .setPixel x y c) → (∀ im q, i ≠ .setImage im q) →
    exec i s = .next t → t.fb = s.fb

/-- Each orientation register has one writer (10_state.md R25 to R28). -/
def Obligations.OrientationRegistersHaveOneWriter : Prop :=
  ∀ (i : Instr) (s t : State), exec i s = .next t →
    ((∀ c, i ≠ .setBorder c) → t.border = s.border) ∧
    ((∀ b, i ≠ .setHflip b) → t.hflip = s.hflip) ∧
    ((∀ b, i ≠ .setVflip b) → t.vflip = s.vflip) ∧
    ((∀ d, i ≠ .setRotation d) → t.rotation = s.rotation)

/-- The Palette Engine, the Frame Buffer and the Bit Packer produce no pin or wire event and use no time
(43_protocol_driver.md R204, 41_framebuffer.md, 40_palette.md R130). -/
def Obligations.PureOperationsTouchNoPin : Prop :=
  ∀ (i : Instr) (s t : State), touchesPins i = false → exec i s = .next t →
    t.trace = s.trace ∧ t.resetOut = s.resetOut ∧ t.dcOut = s.dcOut ∧ t.csOut = s.csOut ∧
    t.timer = s.timer ∧ t.busyIn = s.busyIn ∧ t.bus = s.bus ∧ t.lag = s.lag ∧
    t.phase = .idle ∧ t.requests = s.requests

/-! ## The frame buffer's operations -/

/-- SET_PIXEL inside the buffer writes the low three bits of the colour into the one cell FB[y][x] and
nothing else but the status it reports (41_framebuffer.md R150, 20_memory.md R71). -/
def Obligations.SetPixelWritesOneCell : Prop :=
  ∀ (x y colour : Int) (s : State), s.phase = .idle → s.MemoryOk →
    0 ≤ x → x < 600 → 0 ≤ y → y < 448 →
    ∃ t, exec (.setPixel x y colour) s = .next t ∧
      t = { s with fb := t.fb, result := .ok, reply := .none } ∧
      ((t.fb.read (y.toNat * 600 + x.toNat)).toNat : Int) = colour % 8 ∧
      ∀ a : Nat, a ≠ y.toNat * 600 + x.toNat → t.fb.read a = s.fb.read a

/-- SET_PIXEL outside the buffer reports OutOfBounds with the coordinates and changes nothing else
(41_framebuffer.md R151, 60_exceptions.md R264; the check is D10). -/
def Obligations.SetPixelOutsideIsOutOfBounds : Prop :=
  ∀ (x y colour : Int) (s : State), s.phase = .idle → s.SequencerOk →
    x < 0 ∨ 600 ≤ x ∨ y < 0 ∨ 448 ≤ y →
    exec (.setPixel x y colour) s = .next { s with result := .outOfBounds, reply := .coords x y }

/-- SET_IMAGE with an RGB image of the panel's size fills every cell with the index of the palette entry
nearest to its pixel under BLEND(s), and changes nothing else (41_framebuffer.md R152). -/
def Obligations.SetImageQuantisesRgb : Prop :=
  ∀ (b : Bitmap Rgb) (q : Rat) (s : State), s.phase = .idle → b.wf = true → b.isPanelSize = true →
    ∃ t, exec (.setImage (.rgb b) q) s = .next t ∧
      t = { s with fb := t.fb, result := .ok, reply := .none } ∧
      ∀ x y : Nat, x < 600 → y < 448 → ∃ row p, b.rows[y]? = some row ∧ row[x]? = some p ∧
        t.fb.read (y * 600 + x) = nearest (blendPalette q) p

/-- SET_IMAGE with an indexed image of the panel's size masks each value to three bits into its cell; the
saturation is ignored (41_framebuffer.md R153, D9). -/
def Obligations.SetImageMasksIndexed : Prop :=
  ∀ (b : Bitmap Int) (q : Rat) (s : State), s.phase = .idle → b.wf = true → b.isPanelSize = true →
    ∃ t, exec (.setImage (.indexed b) q) s = .next t ∧
      t = { s with fb := t.fb, result := .ok, reply := .none } ∧
      ∀ x y : Nat, x < 600 → y < 448 → ∃ row v, b.rows[y]? = some row ∧ row[x]? = some v ∧
        ((t.fb.read (y * 600 + x)).toNat : Int) = v % 8

/-- SET_IMAGE with an image of another size reports SizeMismatch, writes nothing and attempts no I/O
(60_exceptions.md R261, 20_memory.md R70). -/
def Obligations.SetImageWrongSizeChangesNothing : Prop :=
  (∀ (b : Bitmap Rgb) (q : Rat) (s : State), s.phase = .idle → s.SequencerOk →
    (b.width, b.height) ≠ (600, 448) →
    exec (.setImage (.rgb b) q) s = .next { s with result := .sizeMismatch, reply := .none }) ∧
  (∀ (b : Bitmap Int) (q : Rat) (s : State), s.phase = .idle → s.SequencerOk →
    (b.width, b.height) ≠ (600, 448) →
    exec (.setImage (.indexed b) q) s = .next { s with result := .sizeMismatch, reply := .none })

/-- SET_BORDER stores one of the eight named colours and ignores any other value, OK in both cases
(41_framebuffer.md R154). -/
def Obligations.SetBorderStoresOrIgnores : Prop :=
  ∀ (colour : Int) (s : State), s.phase = .idle →
    ∃ t, exec (.setBorder colour) s = .next t ∧
      t = { s with border := t.border, result := .ok, reply := .none } ∧
      (0 ≤ colour ∧ colour ≤ 7 → (t.border.toNat : Int) = colour) ∧
      (¬ (0 ≤ colour ∧ colour ≤ 7) → t.border = s.border)

/-- SET_HFLIP and SET_VFLIP write their flag and nothing else (41_framebuffer.md R156, R157; the operations
are D13). -/
def Obligations.SetFlipsWriteOneFlag : Prop :=
  ∀ (b : Bool) (s : State), s.phase = .idle →
    exec (.setHflip b) s = .next { s with hflip := b, result := .ok, reply := .none } ∧
    exec (.setVflip b) s = .next { s with vflip := b, result := .ok, reply := .none }

/-- SET_ROTATION stores a multiple of 90 and refuses any other value with InvalidArgument, leaving the
register (41_framebuffer.md R158, 60_exceptions.md R265; D13, D14). -/
def Obligations.SetRotationStoresMultiplesOf90 : Prop :=
  ∀ (deg : Int) (s : State), s.phase = .idle → s.SequencerOk →
    (deg % 90 = 0 →
      exec (.setRotation deg) s = .next { s with rotation := deg, result := .ok, reply := .none }) ∧
    (deg % 90 ≠ 0 →
      exec (.setRotation deg) s =
        .next { s with result := .invalidArgument, reply := .degrees deg })

/-! ## The Palette Engine -/

/-- BLEND(s) returns 24 integers: entry `i`, channel `c`, is trunc(sat*s + desat*(1-s)), entry 7 is white;
nothing is written (40_palette.md R132; exact arithmetic is D6). -/
def Obligations.BlendReturnsBlendedTables : Prop :=
  ∀ (q : Rat) (s : State), s.phase = .idle →
    ∃ l, exec (.blend q) s = .next { s with result := .ok, reply := .flat l } ∧ l.length = 24 ∧
      (∀ i : Fin 7,
        l[3 * i.val]? = some (truncRat ((config.palSat[i].r.toNat : Rat) * q +
          (config.palDesat[i].r.toNat : Rat) * (1 - q))) ∧
        l[3 * i.val + 1]? = some (truncRat ((config.palSat[i].g.toNat : Rat) * q +
          (config.palDesat[i].g.toNat : Rat) * (1 - q))) ∧
        l[3 * i.val + 2]? = some (truncRat ((config.palSat[i].b.toNat : Rat) * q +
          (config.palDesat[i].b.toNat : Rat) * (1 - q)))) ∧
      l.drop 21 = [255, 255, 255]

/-- The laws of the blend, for any two tables: entry 7 is white for every saturation, saturation 1 gives the
saturated table, 0 the desaturated one, and a channel that is equal in both tables does not depend on the
saturation (40_palette.md R134). The fourth law, (d), is one the spec marks as derived; it holds of the exact
arithmetic the spec decides (D6; DEDUCED, log 17) and fails in binary floating point. -/
def Obligations.BlendLaws : Prop :=
  ∀ sat desat : Vector Rgb 7,
    (∀ q, (blendTables sat desat q)[7]? = some whiteEntry) ∧
    (∀ i : Fin 7, (blendTables sat desat 1)[i.val]? =
      some ⟨sat[i].r.toNat, sat[i].g.toNat, sat[i].b.toNat⟩) ∧
    (∀ i : Fin 7, (blendTables sat desat 0)[i.val]? =
      some ⟨desat[i].r.toNat, desat[i].g.toNat, desat[i].b.toNat⟩) ∧
    (∀ (c : Byte) (q : Rat), blendChannel c c q = c.toNat)

/-- For a saturation in [0, 1] every channel of a blend lies in 0..255 (40_palette.md R132, a sentence the
spec marks as derived). -/
def Obligations.BlendStaysInByteRange : Prop :=
  ∀ (sat desat : Vector Rgb 7) (q : Rat), 0 ≤ q → q ≤ 1 → allBytes (blendTables sat desat q) = true

/-- BLEND24(s) returns eight values r*65536 + g*256 + b when every channel of BLEND(s) is in 0..255, and is
refused otherwise (40_palette.md R133; the channel order is D7). -/
def Obligations.Blend24PacksChannels : Prop :=
  ∀ (q : Rat) (s : State), s.phase = .idle →
    (allBytes (blendPalette q) = true →
      ∃ l, exec (.blend24 q) s = .next { s with result := .ok, reply := .packed l } ∧ l.length = 8 ∧
        ∀ (i : Nat) (p : Triple), (blendPalette q)[i]? = some p →
          ∃ w, l[i]? = some w ∧ (w.toNat : Int) = p.r * 65536 + p.g * 256 + p.b) ∧
    (allBytes (blendPalette q) = false → exec (.blend24 q) s = .refused .channelOutOfRange)

/-- QUANTIZE returns, for every pixel, the lowest index whose palette entry is nearest to it; nothing is
written (40_palette.md R135; metric and tie-break are D8). That an operand of another shape is refused is the
model's choice (log 20): R135 gives those operands no other shape and no error. -/
def Obligations.QuantizePicksLowestNearest : Prop :=
  ∀ (b : Bitmap Rgb) (pal : List Triple) (s : State), s.phase = .idle →
    (b.wf = true → b.isPanelSize = true → pal.length = 8 →
      ∃ out : Bitmap Colour,
        exec (.quantize b pal) s = .next { s with result := .ok, reply := .indexed out } ∧
        out.width = 600 ∧ out.height = 448 ∧
        ∀ x y : Nat, x < 600 → y < 448 →
          ∃ row p orow c best, b.rows[y]? = some row ∧ row[x]? = some p ∧
            out.rows[y]? = some orow ∧ orow[x]? = some c ∧ pal[c.toNat]? = some best ∧
            (∀ e ∈ pal, dist best p ≤ dist e p) ∧
            (∀ (k : Nat) (e : Triple), k < c.toNat → pal[k]? = some e → dist best p < dist e p)) ∧
    (¬ (b.wf = true ∧ b.isPanelSize = true ∧ pal.length = 8) →
      exec (.quantize b pal) s = .refused (.illFormed "QUANTIZE"))

/-! ## RENDER -/

/-- RENDER returns 268800 indices; element `n` is the cell the index map names; nothing is written, and the
border operand has no effect. A rotation that is not a multiple of 90 is refused (41_framebuffer.md R160,
and R161, which the spec marks as derived; D12, D14). -/
def Obligations.RenderFollowsIndexMap : Prop :=
  ∀ (border : Colour) (hf vf : Bool) (rot : Int) (s : State), s.phase = .idle →
    (rot % 90 = 0 →
      ∃ l, exec (.render border hf vf rot) s = .next { s with result := .ok, reply := .indices l } ∧
        l.length = 268800 ∧
        ∀ n, n < 268800 →
          l[n]? = some (s.fb.read
            ((sourceCell hf vf ((rot / 90) % 4).toNat n).2 * 600 +
             (sourceCell hf vf ((rot / 90) % 4).toNat n).1))) ∧
    (rot % 90 ≠ 0 → exec (.render border hf vf rot) s = .refused (.illFormed "RENDER"))

/-- RENDER permutes the cells: for each orientation there is one map of output indices to cells, the same for
every buffer and every border, under which each of the 268800 cells is the source of exactly one index, and
what RENDER returns at an index is the cell of that index (41_framebuffer.md R161, which the spec derives from
R160). -/
def Obligations.RenderIsPermutation : Prop :=
  ∀ (hf vf : Bool) (rot : Int), rot % 90 = 0 →
    ∃ f : Nat → Nat,
      (∀ n, n < 268800 → f n < 268800) ∧
      (∀ a, a < 268800 → ∃ n, n < 268800 ∧ f n = a ∧ ∀ n', n' < 268800 → f n' = a → n' = n) ∧
      ∀ (border : Colour) (s : State), s.phase = .idle →
        ∃ l, exec (.render border hf vf rot) s = .next { s with result := .ok, reply := .indices l } ∧
          l.length = 268800 ∧ ∀ n, n < 268800 → l[n]? = some (s.fb.read (f n))

/-- With every transform off RENDER is the row-major flatten of the buffer, a law the source states
(41_framebuffer.md R162 (a)); both mirrors then a half turn give the same as no transform, which the spec
derives from R161 as a consequence of the source's law (b) (R162). -/
def Obligations.RenderLaws : Prop :=
  ∀ m : Memory,
    (∀ x y : Nat, x < 600 → y < 448 →
      (renderSequence m false false 0)[y * 600 + x]? = some (m.read (y * 600 + x))) ∧
    renderSequence m true true 2 = renderSequence m false false 0

/-! ## PACK -/

/-- PACK of an even-length sequence returns half as many bytes, byte `i` being v[2i] in bits 7..4 and
v[2i+1] in bits 3..0; an odd length is InvalidArgument and no bytes are returned (42_packer.md R180, R181;
D16). That the error records the sequence itself is the model's choice (log 33). -/
def Obligations.PackPairsIndices : Prop :=
  ∀ (v : List Colour) (s : State), s.phase = .idle → s.SequencerOk →
    (v.length % 2 = 0 →
      ∃ l, exec (.pack v) s = .next { s with result := .ok, reply := .bytes l } ∧
        l.length = v.length / 2 ∧
        ∀ (i : Nat) (a b : Colour), v[2 * i]? = some a → v[2 * i + 1]? = some b →
          ∃ x, l[i]? = some x ∧ x.toNat = a.toNat * 16 + b.toNat) ∧
    (v.length % 2 ≠ 0 →
      exec (.pack v) s = .next { s with result := .invalidArgument, reply := .oddSequence v })

/-- PACK round-trips: unpacking the packed bytes of an even-length sequence of colour indices recovers it
(42_packer.md R182). -/
def Obligations.PackRoundTrips : Prop :=
  ∀ v : List Colour, v.length % 2 = 0 →
    (unpackBytes (packIndices v)).map BitVec.toNat = v.map BitVec.toNat

/-- Bits 7 and 3 of every byte of the frame SHOW sends are 0, and the frame has 134400 bytes
(30_encoding.md R103, marked as derived; 00_scope.md R6). -/
def Obligations.ShownFrameShape : Prop :=
  ∀ s : State, s.shownFrame.length = 134400 ∧
    ∀ x ∈ s.shownFrame, x.getLsbD 7 = false ∧ x.getLsbD 3 = false

/-! ## The transport -/

/-- A logical write of `n` bytes is cut into ceil(n/4096) transfers, in order, without gap or overlap: each
but the last has 4096 bytes and the last has 1 to 4096 (45_transport.md R242, D20). -/
def Obligations.ChunksCoverBytesInOrder : Prop :=
  ∀ bytes : List Byte,
    (chunks bytes).flatten = bytes ∧
    (chunks bytes).length = (bytes.length + 4095) / 4096 ∧
    (∀ (k : Nat) (c : List Byte), (chunks bytes)[k]? = some c →
      1 ≤ c.length ∧ c.length ≤ 4096 ∧ (k + 1 < (chunks bytes).length → c.length = 4096))

/-- WRITE on an Idle block whose transfers succeed asserts chip-select, sets the level, makes its transfers,
deasserts chip-select and reports OK; nothing else changes (45_transport.md R240; the levels are D17). -/
def Obligations.WriteSendsEvents : Prop :=
  ∀ (isData : Bool) (bytes : List Byte) (s : State), s.phase = .idle → s.busGood →
    exec (.write isData bytes) s =
      .next { s with
        csOut := config.csDeasserted
        dcOut := if isData then config.dataLevel else config.commandLevel
        bus := s.bus.after (chunks bytes).length
        trace := s.trace ++ [.cs config.csAsserted,
          .dc (if isData then config.dataLevel else config.commandLevel)] ++
          (chunks bytes).map .xfer ++ [.cs config.csDeasserted]
        result := .ok
        reply := .none }

/-- A WRITE whose first `k` transfers succeed and whose next one fails records the failure, attempts no
later transfer, leaves chip-select asserted and reports TransportFailure (45_transport.md R246, R247; the
pin level is D21). -/
def Obligations.WriteStopsAtFailedTransfer : Prop :=
  ∀ (isData : Bool) (bytes : List Byte) (s : State) (k : Nat) (c : List Byte) (rest : List Bool),
    s.phase = .idle → s.bus.next = List.replicate k true ++ false :: rest →
    (chunks bytes)[k]? = some c →
    ∃ t, exec (.write isData bytes) s = .next t ∧
      t.trace = s.trace ++ [.cs config.csAsserted,
        .dc (if isData then config.dataLevel else config.commandLevel)] ++
        ((chunks bytes).take k).map .xfer ++ [.xfail c] ∧
      t.csOut = config.csAsserted ∧
      t.dcOut = (if isData then config.dataLevel else config.commandLevel) ∧
      t.result = .transportFailure ∧ t.phase = .idle ∧ t.fb = s.fb ∧ t.bus.next = rest

/-! ## The driver's primitives -/

/-- SEND_COMMAND on an Idle block whose transfers succeed sends the opcode at command level in one logical
write and, if there is data, the data at data level in a second; nothing else changes
(43_protocol_driver.md R194, 30_encoding.md R90; D19). -/
def Obligations.SendCommandMakesTwoWrites : Prop :=
  ∀ (op : Byte) (data : List Byte) (s : State), s.phase = .idle → s.busGood →
    exec (.sendCommand op data) s =
      .next { s with
        csOut := config.csDeasserted
        dcOut := if data = [] then config.commandLevel else config.dataLevel
        bus := s.bus.after (1 + (chunks data).length)
        trace := s.trace ++
          [.cs config.csAsserted, .dc config.commandLevel, .xfer [op], .cs config.csDeasserted] ++
          (if data = [] then [] else
            [.cs config.csAsserted, .dc config.dataLevel] ++ (chunks data).map .xfer ++
              [.cs config.csDeasserted])
        result := .ok
        reply := .none }

/-- If the opcode write of a SEND_COMMAND fails the data write is not attempted (43_protocol_driver.md
R194, D28). That the trace ends at the failed transfer, chip-select not being deasserted after it, is the
spec's decision (45_transport.md R247, D21; log 23); a block that releases it is also within the source (93
U7). -/
def Obligations.FailedOpcodeSuppressesData : Prop :=
  ∀ (op : Byte) (data : List Byte) (s : State), s.phase = .idle → s.bus.look.1 = false →
    ∃ t, exec (.sendCommand op data) s = .next t ∧
      t.trace = s.trace ++ [.cs config.csAsserted, .dc config.commandLevel, .xfail [op]] ∧
      t.result = .transportFailure ∧ t.phase = .idle

/-- A SEND_COMMAND whose opcode write succeeds and whose data write fails at its transfer `k`, the first `k`
having succeeded, attempts no later transfer: the failed one ends the trace, chip-select stays asserted and
DC_OUT at data level, and TransportFailure is reported with the block Idle; nothing else changes
(43_protocol_driver.md R194; 45_transport.md R246, R247; 60_exceptions.md R266; the pin level is D21). -/
def Obligations.SendCommandStopsAtFailedDataTransfer : Prop :=
  ∀ (op : Byte) (data : List Byte) (s : State) (k : Nat) (c : List Byte) (rest : List Bool),
    s.phase = .idle → s.bus.next = List.replicate (k + 1) true ++ false :: rest →
    (chunks data)[k]? = some c →
    exec (.sendCommand op data) s =
      .next { s with
        csOut := config.csAsserted
        dcOut := config.dataLevel
        bus := ⟨false, rest⟩
        trace := s.trace ++
          [.cs config.csAsserted, .dc config.commandLevel, .xfer [op], .cs config.csDeasserted,
           .cs config.csAsserted, .dc config.dataLevel] ++
          ((chunks data).take k).map .xfer ++ [.xfail c]
        phase := .idle, stepReg := 0, inUpdate := false, frame := []
        result := .transportFailure
        reply := .none }

/-- An AWAIT_READY whose first sample reads 1 returns OK at once with one POLL(1) and no delay
(43_protocol_driver.md R190). -/
def Obligations.ReadyPinEndsWaitAtOnce : Prop :=
  ∀ (timeout : Duration) (s : State), s.phase = .idle → s.busyIn.look.1 = true →
    exec (.awaitReady timeout) s =
      .next { s with
        busyIn := s.busyIn.look.2
        trace := s.trace ++ [.poll true]
        result := .ok
        reply := .none }

/-- Every AWAIT_READY ends in one of two ways: Ready(m), m samples of 0 and one of 1, with m below the
bound; or Timeout(m), at least one and at most the bound of samples of 0, and TIMER at least `timeout`
later (43_protocol_driver.md R191, R192; the bound for a timeout of 0 is log 26). -/
def Obligations.WaitHasTwoOutcomes : Prop :=
  ∀ (timeout : Duration) (s : State), s.phase = .idle →
    ∃ t m, exec (.awaitReady timeout) s = .next t ∧ t.fb = s.fb ∧ t.phase = .idle ∧
      t.csOut = s.csOut ∧ t.dcOut = s.dcOut ∧ t.resetOut = s.resetOut ∧
      ((t.result = .ok ∧ t.trace = s.trace ++ pollPairs m ++ [.poll true] ∧
          m < max 1 ((timeout + config.pollInterval - 1) / config.pollInterval)) ∨
       (t.result = .busyTimeout ∧ t.trace = s.trace ++ pollPairs m ∧ 1 ≤ m ∧
          m ≤ max 1 ((timeout + config.pollInterval - 1) / config.pollInterval) ∧
          s.timer + timeout ≤ t.timer))

/-- Both outcomes of a wait occur: with sleeps no longer than asked, m samples of 0 below the bound and then
a 1 give Ready(m); a pin that never reads 1 gives BusyTimeout (43_protocol_driver.md R192). -/
def Obligations.WaitFollowsPin : Prop :=
  (∀ (timeout : Duration) (s : State) (m : Nat) (rest : List Bool), s.phase = .idle →
    s.lag.always 0 → s.busyIn.next = List.replicate m false ++ true :: rest →
    m * config.pollInterval < timeout →
    ∃ t, exec (.awaitReady timeout) s = .next t ∧ t.result = .ok ∧
      t.trace = s.trace ++ pollPairs m ++ [.poll true] ∧ t.busyIn.next = rest) ∧
  (∀ (timeout : Duration) (s : State), s.phase = .idle → s.pinStuck →
    ∃ t, exec (.awaitReady timeout) s = .next t ∧ t.result = .busyTimeout)

/-! ## Wire commands -/

/-- The CDI payload is one byte, bits 7 to 5 the border colour and bits 4 to 0 0x17, with nothing lost
(30_encoding.md R96). -/
def Obligations.CdiPayloadCarriesBorder : Prop :=
  ∀ s : State, ∃ x, payload .cdi s = [x] ∧ x.toNat = s.border.toNat * 32 + 0x17 ∧
    x.extractLsb' 5 3 = s.border ∧ x.extractLsb' 0 5 = 0x17

/-- Each of the fourteen wire commands, TRES, PSR, PWR, PLL, TSE, CDI, TCON, DAM, PWS, PFS, DTM1, PON, DRF
and POF, executed at its position of a running sequence with a transport that succeeds, sends its opcode
and payload by SEND_COMMAND, moves STEP to the next position and PHASE with it, and changes nothing else
(44_wire_commands.md R220 to R233, 43_protocol_driver.md R200, R201). -/
def Obligations.WireCommandsSendAndAdvance : Prop :=
  ∀ (c : WireCommand) (s : State), s.phase ≠ .idle → s.stepReg = microPosition c → s.busGood →
    exec (Instr.ofWire c) s =
      .next { s with
        csOut := config.csDeasserted
        dcOut := if payload c s = [] then config.commandLevel else config.dataLevel
        bus := s.bus.after (1 + (chunks (payload c s)).length)
        trace := s.trace ++ commandEvents c.opcode (payload c s)
        stepReg := microPosition c + 1
        phase := phaseOf (microPosition c + 1) }

/-- On an Idle block a wire command is a SEND_COMMAND of its opcode and payload (log 27, the model's
choice: the spec sends a wire command only from the microprogram). -/
def Obligations.WireCommandOnIdleIsSendCommand : Prop :=
  ∀ (c : WireCommand) (s : State), s.phase = .idle →
    exec (Instr.ofWire c) s = exec (.sendCommand c.opcode (payload c s)) s

/-- A wire command, executed at its position of a running sequence, whose opcode transfer or whose data
transfer `k` fails ends the sequence with TransportFailure: PHASE Idle, STEP 0, IN_UPDATE 0, nothing sent
after the failed transfer, chip-select asserted and DC_OUT at the level of the failed write; nothing else
changes (60_exceptions.md R263, R266; 45_transport.md R246, R247; 95 V-DRV-9, V-DRV-10; the pin level is
D21). -/
def Obligations.FailedWireCommandAbandonsSequence : Prop :=
  ∀ (c : WireCommand) (s : State), s.phase ≠ .idle → s.stepReg = microPosition c →
    (s.bus.look.1 = false →
      exec (Instr.ofWire c) s =
        .next { s with
          csOut := config.csAsserted
          dcOut := config.commandLevel
          bus := s.bus.look.2
          trace := s.trace ++ [.cs config.csAsserted, .dc config.commandLevel, .xfail [c.opcode]]
          phase := .idle, stepReg := 0, inUpdate := false, frame := []
          result := .transportFailure
          reply := .none }) ∧
    (∀ (k : Nat) (chunk : List Byte) (rest : List Bool),
      s.bus.next = List.replicate (k + 1) true ++ false :: rest →
      (chunks (payload c s))[k]? = some chunk →
      exec (Instr.ofWire c) s =
        .next { s with
          csOut := config.csAsserted
          dcOut := config.dataLevel
          bus := ⟨false, rest⟩
          trace := s.trace ++
            [.cs config.csAsserted, .dc config.commandLevel, .xfer [c.opcode], .cs config.csDeasserted,
             .cs config.csAsserted, .dc config.dataLevel] ++
            ((chunks (payload c s)).take k).map .xfer ++ [.xfail chunk]
          phase := .idle, stepReg := 0, inUpdate := false, frame := []
          result := .transportFailure
          reply := .none })

/-! ## Errors and the sequencer -/

/-- An operation that an Idle block executes and that reports an error leaves the block Idle at position 0
with the link clear, so that the host may try again, and no cell, no orientation register and no waiting
request changed (60_exceptions.md R266, R267; D21). -/
def Obligations.FailedOperationLeavesBlockIdle : Prop :=
  ∀ (i : Instr) (s t : State), s.phase = .idle → exec i s = .next t → t.result ≠ .ok →
    t.phase = .idle ∧ t.stepReg = 0 ∧ t.inUpdate = false ∧ t.fb = s.fb ∧
    t.border = s.border ∧ t.hflip = s.hflip ∧ t.vflip = s.vflip ∧ t.rotation = s.rotation ∧
    t.requests = s.requests

/-- A wait position of a running sequence (4, 17, 19, 21, 23) whose pin never reads 1 ends the whole
operation with BusyTimeout: nothing more is sent and no pin moves (43_protocol_driver.md R203,
60_exceptions.md R262, R266). -/
def Obligations.TimeoutAbandonsSequence : Prop :=
  ∀ s : State, s.phase ≠ .idle → s.pinStuck →
    s.stepReg = 4 ∨ s.stepReg = 17 ∨ s.stepReg = 19 ∨ s.stepReg = 21 ∨ s.stepReg = 23 →
    ∃ t m, step s = .next t ∧ t.result = .busyTimeout ∧ t.phase = .idle ∧ t.stepReg = 0 ∧
      t.inUpdate = false ∧ t.trace = s.trace ++ pollPairs m ∧ t.csOut = s.csOut ∧ t.dcOut = s.dcOut ∧
      t.resetOut = s.resetOut ∧ t.fb = s.fb

/-- A step of a running sequence either moves STEP on by one, with the phase of the new position, or ends
the sequence; there is no branch, no jump back and no skipping (43_protocol_driver.md R201). That STEP does
not stay while an AWAIT_READY has not ended is the model's choice, whose AWAIT_READY is one micro-step (log 1),
and that RESULT is left alone by a step that moves on is DEDUCED (log 34). -/
def Obligations.StepRegisterAdvancesOrEnds : Prop :=
  ∀ s t : State, s.phase ≠ .idle → step s = .next t →
    (t.stepReg.val = s.stepReg.val + 1 ∧ t.phase = phaseOf t.stepReg ∧ t.inUpdate = s.inUpdate ∧
      t.result = s.result) ∨
    (t.phase = .idle ∧ t.stepReg = 0 ∧ t.inUpdate = false ∧
      (t.result = .ok ∨ t.result = .busyTimeout ∨ t.result = .transportFailure))

/-- Executing SETUP, UPDATE or SHOW on an Idle block with no request waiting is the same as starting the
sequence and taking its micro-steps one machine step at a time (43_protocol_driver.md R196, R202, R204; the
two views are the model's choice, log 1). -/
def Obligations.SequenceIsItsMicroSteps : Prop :=
  ∀ s : State, s.phase = .idle → s.requests = [] →
    exec .setup s = Host.Core.run Sys2Proof.core 25 (s.start false []) ∧
    (∀ frame : List Byte, frame.length = 134400 →
      exec (.update frame) s = Host.Core.run Sys2Proof.core 25 (s.start true frame)) ∧
    exec .showPanel s = Host.Core.run Sys2Proof.core 25 (s.start true s.shownFrame)

/-- SETUP, UPDATE and SHOW always end, in exactly one of three ways, OK, BusyTimeout or TransportFailure,
with the block Idle and the buffer and orientation registers as they were, whatever the environment answers
(70 R302, 60_exceptions.md R266, 43 R204). -/
def Obligations.SequencesAlwaysEnd : Prop :=
  ∀ (i : Instr) (s : State), s.phase = .idle →
    i = .setup ∨ i = .showPanel ∨ (∃ frame, i = .update frame ∧ frame.length = 134400) →
    ∃ t, exec i s = .next t ∧ t.phase = .idle ∧ t.stepReg = 0 ∧ t.inUpdate = false ∧
      (t.result = .ok ∨ t.result = .busyTimeout ∨ t.result = .transportFailure) ∧
      t.fb = s.fb ∧ t.border = s.border ∧ t.hflip = s.hflip ∧ t.vflip = s.vflip ∧
      t.rotation = s.rotation ∧ t.requests = s.requests

/-! ## SETUP, UPDATE, SHOW -/

/-- SETUP with a ready pin and a transport that succeeds: the reset pulse, one wait, and the ten
configuration commands in their order with the border colour in CDI; OK, the block Idle, everything but
pins, TRACE, inputs, TIMER and status unchanged, and at least the two reset delays passed
(43_protocol_driver.md R196, R200; 70 R305). -/
def Obligations.SetupSendsConfiguration : Prop :=
  ∀ s : State, s.phase = .idle → s.SequencerOk → s.pinReady → s.busGood →
    ∃ t, exec .setup s = .next t ∧ s.timer + 200 ≤ t.timer ∧
      t = { s with
        resetOut := true, dcOut := config.dataLevel, csOut := config.csDeasserted
        busyIn := t.busyIn, bus := t.bus, lag := t.lag, timer := t.timer
        result := .ok, reply := .none
        trace := s.trace ++ setupEvents s.border }

/-- UPDATE with a ready pin and a transport that succeeds: SETUP's events, then DTM1 with the frame, PON,
DRF and POF, each followed by a wait; OK, the block Idle (43_protocol_driver.md R202, R200). A frame of
another length is refused. -/
def Obligations.UpdateSendsFrame : Prop :=
  ∀ (frame : List Byte) (s : State), s.phase = .idle → s.SequencerOk → s.pinReady → s.busGood →
    (frame.length = 134400 →
      ∃ t, exec (.update frame) s = .next t ∧
        t = { s with
          resetOut := true, dcOut := config.commandLevel, csOut := config.csDeasserted
          busyIn := t.busyIn, bus := t.bus, lag := t.lag, timer := t.timer
          result := .ok, reply := .none
          trace := s.trace ++ updateEvents s.border frame }) ∧
    (frame.length ≠ 134400 → exec (.update frame) s = .refused (.illFormed "UPDATE"))

/-- SHOW with a ready pin and a transport that succeeds puts the buffer on the wire: UPDATE's events with
the frame PACK(RENDER(BORDER, HFLIP, VFLIP, ROTATION)); OK, the block Idle, buffer and registers unchanged
(43_protocol_driver.md R204). -/
def Obligations.ShowSendsRenderedFrame : Prop :=
  ∀ s : State, s.phase = .idle → s.SequencerOk → s.pinReady → s.busGood →
    ∃ t, exec .showPanel s = .next t ∧
      t = { s with
        resetOut := true, dcOut := config.commandLevel, csOut := config.csDeasserted
        busyIn := t.busyIn, bus := t.bus, lag := t.lag, timer := t.timer
        result := .ok, reply := .none
        trace := s.trace ++ updateEvents s.border
          (packIndices (renderSequence s.fb s.hflip s.vflip ((s.rotation / 90) % 4).toNat)) }

/-- An UPDATE that reports OK has sent everything, whatever the panel and the transport answered: the reset
pulse, the ten configuration commands, then DTM1 with the frame, PON, DRF and POF, each command after DTM1
and the end of the operation only after BUSY_IN was sampled 1 (43_protocol_driver.md R200, R202; 70 R306).
SHOW is the same with the frame it renders (R204). -/
def Obligations.OkMeansEverythingWasSent : Prop :=
  ∀ (i : Instr) (s t : State) (frame : List Byte), s.phase = .idle → exec i s = .next t → t.result = .ok →
    i = .update frame ∨ (i = .showPanel ∧ frame = s.shownFrame) →
    ∃ m1 m2 m3 m4 m5, t.trace = s.trace ++ resetPulse ++ pollPairs m1 ++ [.poll true] ++
      configEvents s.border ++ commandEvents config.opDtm1 frame ++ pollPairs m2 ++ [.poll true] ++
      commandEvents config.opPon [] ++ pollPairs m3 ++ [.poll true] ++
      commandEvents config.opDrf [] ++ pollPairs m4 ++ [.poll true] ++
      commandEvents config.opPof [] ++ pollPairs m5 ++ [.poll true]

/-- Whatever the panel and the transport answer, the bytes an UPDATE gets through are a prefix of the bytes
of a whole UPDATE: no opcode outside the fourteen, no byte outside their payloads, no command out of order,
nothing after the failing point (30_encoding.md R101; 43_protocol_driver.md R201, R203; 45 R246). It speaks
of UPDATE alone, not of SETUP and SHOW. -/
def Obligations.BytesSentArePrefix : Prop :=
  ∀ (frame : List Byte) (s : State) (b : Bool), s.phase = .idle → frame.length = 134400 →
    ∃ t es, exec (.update frame) s = .next t ∧ t.trace = s.trace ++ es ∧
      byteStream b es <+: byteStream b (updateEvents s.border frame)

/-- A panel that never answers: SETUP and SHOW end with BusyTimeout after the reset pulse and samples of 0;
no byte is sent and chip-select never moves (43_protocol_driver.md R192, R196; 95 P4). -/
def Obligations.SilentPanelSendsNothing : Prop :=
  ∀ (i : Instr) (s : State), i = .setup ∨ i = .showPanel → s.phase = .idle → s.pinStuck →
    ∃ t m, exec i s = .next t ∧ t.result = .busyTimeout ∧ t.phase = .idle ∧
      t.trace = s.trace ++ [.rst false, .delay 100, .rst true, .delay 100] ++ pollPairs m ∧
      t.csOut = s.csOut ∧ t.dcOut = s.dcOut ∧ t.resetOut = true ∧
      s.timer + 200 + config.busyTimeout ≤ t.timer

/-- What the panel controller can read off the trace that an UPDATE with a ready pin and a transport that
succeeds leaves: the byte stream of the events it appends, cut at command bytes, is the fourteen commands in
order with their payloads, however the frame was cut into transfers (30_encoding.md R91, R93, R101;
45_transport.md R243). -/
def Obligations.UpdateCommandList : Prop :=
  ∀ (frame : List Byte) (s : State), s.phase = .idle → s.pinReady → s.busGood → frame.length = 134400 →
    ∃ t es, exec (.update frame) s = .next t ∧ t.trace = s.trace ++ es ∧
      ∀ b : Bool, cutCommands config.commandLevel (byteStream b es) =
        [(config.opTres, [0x02, 0x58, 0x01, 0xC0]), (config.opPsr, config.plPsr),
         (config.opPwr, config.plPwr), (config.opPll, config.plPll), (config.opTse, config.plTse),
         (config.opCdi, [(s.border.setWidth 8 <<< 5) ||| 0x17]), (config.opTcon, config.plTcon),
         (config.opDam, config.plDam), (config.opPws, config.plPws), (config.opPfs, config.plPfs),
         (config.opDtm1, frame), (config.opPon, []), (config.opDrf, []), (config.opPof, [])]
end

