-- ==== Sys2Proof/Laws/State.lean ====
section
/-! SUPPORT. One lemma per field per update of State, so that no proof unfolds a record update. -/

namespace Sys2Proof.Machine

variable (s : State)

/-! ### driveReset -/

@[simp] theorem State.driveReset_fb (b : Bool) : (s.driveReset b).fb = s.fb := rfl
@[simp] theorem State.driveReset_border (b : Bool) : (s.driveReset b).border = s.border := rfl
@[simp] theorem State.driveReset_hflip (b : Bool) : (s.driveReset b).hflip = s.hflip := rfl
@[simp] theorem State.driveReset_vflip (b : Bool) : (s.driveReset b).vflip = s.vflip := rfl
@[simp] theorem State.driveReset_rotation (b : Bool) : (s.driveReset b).rotation = s.rotation := rfl
@[simp] theorem State.driveReset_phase (b : Bool) : (s.driveReset b).phase = s.phase := rfl
@[simp] theorem State.driveReset_stepReg (b : Bool) : (s.driveReset b).stepReg = s.stepReg := rfl
@[simp] theorem State.driveReset_inUpdate (b : Bool) : (s.driveReset b).inUpdate = s.inUpdate := rfl
@[simp] theorem State.driveReset_resetOut (b : Bool) : (s.driveReset b).resetOut = b := rfl
@[simp] theorem State.driveReset_dcOut (b : Bool) : (s.driveReset b).dcOut = s.dcOut := rfl
@[simp] theorem State.driveReset_csOut (b : Bool) : (s.driveReset b).csOut = s.csOut := rfl
@[simp] theorem State.driveReset_busyIn (b : Bool) : (s.driveReset b).busyIn = s.busyIn := rfl
@[simp] theorem State.driveReset_timer (b : Bool) : (s.driveReset b).timer = s.timer := rfl
@[simp] theorem State.driveReset_result (b : Bool) : (s.driveReset b).result = s.result := rfl
@[simp] theorem State.driveReset_trace (b : Bool) : (s.driveReset b).trace = s.trace ++ [.rst b] := rfl
@[simp] theorem State.driveReset_reply (b : Bool) : (s.driveReset b).reply = s.reply := rfl
@[simp] theorem State.driveReset_frame (b : Bool) : (s.driveReset b).frame = s.frame := rfl
@[simp] theorem State.driveReset_bus (b : Bool) : (s.driveReset b).bus = s.bus := rfl
@[simp] theorem State.driveReset_lag (b : Bool) : (s.driveReset b).lag = s.lag := rfl
@[simp] theorem State.driveReset_requests (b : Bool) : (s.driveReset b).requests = s.requests := rfl

/-! ### driveDc -/

@[simp] theorem State.driveDc_fb (b : Bool) : (s.driveDc b).fb = s.fb := rfl
@[simp] theorem State.driveDc_border (b : Bool) : (s.driveDc b).border = s.border := rfl
@[simp] theorem State.driveDc_hflip (b : Bool) : (s.driveDc b).hflip = s.hflip := rfl
@[simp] theorem State.driveDc_vflip (b : Bool) : (s.driveDc b).vflip = s.vflip := rfl
@[simp] theorem State.driveDc_rotation (b : Bool) : (s.driveDc b).rotation = s.rotation := rfl
@[simp] theorem State.driveDc_phase (b : Bool) : (s.driveDc b).phase = s.phase := rfl
@[simp] theorem State.driveDc_stepReg (b : Bool) : (s.driveDc b).stepReg = s.stepReg := rfl
@[simp] theorem State.driveDc_inUpdate (b : Bool) : (s.driveDc b).inUpdate = s.inUpdate := rfl
@[simp] theorem State.driveDc_resetOut (b : Bool) : (s.driveDc b).resetOut = s.resetOut := rfl
@[simp] theorem State.driveDc_dcOut (b : Bool) : (s.driveDc b).dcOut = b := rfl
@[simp] theorem State.driveDc_csOut (b : Bool) : (s.driveDc b).csOut = s.csOut := rfl
@[simp] theorem State.driveDc_busyIn (b : Bool) : (s.driveDc b).busyIn = s.busyIn := rfl
@[simp] theorem State.driveDc_timer (b : Bool) : (s.driveDc b).timer = s.timer := rfl
@[simp] theorem State.driveDc_result (b : Bool) : (s.driveDc b).result = s.result := rfl
@[simp] theorem State.driveDc_trace (b : Bool) : (s.driveDc b).trace = s.trace ++ [.dc b] := rfl
@[simp] theorem State.driveDc_reply (b : Bool) : (s.driveDc b).reply = s.reply := rfl
@[simp] theorem State.driveDc_frame (b : Bool) : (s.driveDc b).frame = s.frame := rfl
@[simp] theorem State.driveDc_bus (b : Bool) : (s.driveDc b).bus = s.bus := rfl
@[simp] theorem State.driveDc_lag (b : Bool) : (s.driveDc b).lag = s.lag := rfl
@[simp] theorem State.driveDc_requests (b : Bool) : (s.driveDc b).requests = s.requests := rfl

/-! ### driveCs -/

@[simp] theorem State.driveCs_fb (b : Bool) : (s.driveCs b).fb = s.fb := rfl
@[simp] theorem State.driveCs_border (b : Bool) : (s.driveCs b).border = s.border := rfl
@[simp] theorem State.driveCs_hflip (b : Bool) : (s.driveCs b).hflip = s.hflip := rfl
@[simp] theorem State.driveCs_vflip (b : Bool) : (s.driveCs b).vflip = s.vflip := rfl
@[simp] theorem State.driveCs_rotation (b : Bool) : (s.driveCs b).rotation = s.rotation := rfl
@[simp] theorem State.driveCs_phase (b : Bool) : (s.driveCs b).phase = s.phase := rfl
@[simp] theorem State.driveCs_stepReg (b : Bool) : (s.driveCs b).stepReg = s.stepReg := rfl
@[simp] theorem State.driveCs_inUpdate (b : Bool) : (s.driveCs b).inUpdate = s.inUpdate := rfl
@[simp] theorem State.driveCs_resetOut (b : Bool) : (s.driveCs b).resetOut = s.resetOut := rfl
@[simp] theorem State.driveCs_dcOut (b : Bool) : (s.driveCs b).dcOut = s.dcOut := rfl
@[simp] theorem State.driveCs_csOut (b : Bool) : (s.driveCs b).csOut = b := rfl
@[simp] theorem State.driveCs_busyIn (b : Bool) : (s.driveCs b).busyIn = s.busyIn := rfl
@[simp] theorem State.driveCs_timer (b : Bool) : (s.driveCs b).timer = s.timer := rfl
@[simp] theorem State.driveCs_result (b : Bool) : (s.driveCs b).result = s.result := rfl
@[simp] theorem State.driveCs_trace (b : Bool) : (s.driveCs b).trace = s.trace ++ [.cs b] := rfl
@[simp] theorem State.driveCs_reply (b : Bool) : (s.driveCs b).reply = s.reply := rfl
@[simp] theorem State.driveCs_frame (b : Bool) : (s.driveCs b).frame = s.frame := rfl
@[simp] theorem State.driveCs_bus (b : Bool) : (s.driveCs b).bus = s.bus := rfl
@[simp] theorem State.driveCs_lag (b : Bool) : (s.driveCs b).lag = s.lag := rfl
@[simp] theorem State.driveCs_requests (b : Bool) : (s.driveCs b).requests = s.requests := rfl

/-! ### delay -/

@[simp] theorem State.delay_fb (d : Duration) : (s.delay d).fb = s.fb := rfl
@[simp] theorem State.delay_border (d : Duration) : (s.delay d).border = s.border := rfl
@[simp] theorem State.delay_hflip (d : Duration) : (s.delay d).hflip = s.hflip := rfl
@[simp] theorem State.delay_vflip (d : Duration) : (s.delay d).vflip = s.vflip := rfl
@[simp] theorem State.delay_rotation (d : Duration) : (s.delay d).rotation = s.rotation := rfl
@[simp] theorem State.delay_phase (d : Duration) : (s.delay d).phase = s.phase := rfl
@[simp] theorem State.delay_stepReg (d : Duration) : (s.delay d).stepReg = s.stepReg := rfl
@[simp] theorem State.delay_inUpdate (d : Duration) : (s.delay d).inUpdate = s.inUpdate := rfl
@[simp] theorem State.delay_resetOut (d : Duration) : (s.delay d).resetOut = s.resetOut := rfl
@[simp] theorem State.delay_dcOut (d : Duration) : (s.delay d).dcOut = s.dcOut := rfl
@[simp] theorem State.delay_csOut (d : Duration) : (s.delay d).csOut = s.csOut := rfl
@[simp] theorem State.delay_busyIn (d : Duration) : (s.delay d).busyIn = s.busyIn := rfl
@[simp] theorem State.delay_timer (d : Duration) : (s.delay d).timer = s.timer + d + s.lag.look.1 := rfl
@[simp] theorem State.delay_result (d : Duration) : (s.delay d).result = s.result := rfl
@[simp] theorem State.delay_trace (d : Duration) : (s.delay d).trace = s.trace ++ [.delay d] := rfl
@[simp] theorem State.delay_reply (d : Duration) : (s.delay d).reply = s.reply := rfl
@[simp] theorem State.delay_frame (d : Duration) : (s.delay d).frame = s.frame := rfl
@[simp] theorem State.delay_bus (d : Duration) : (s.delay d).bus = s.bus := rfl
@[simp] theorem State.delay_lag (d : Duration) : (s.delay d).lag = s.lag.look.2 := rfl
@[simp] theorem State.delay_requests (d : Duration) : (s.delay d).requests = s.requests := rfl

/-! ### start -/

@[simp] theorem State.start_fb (u : Bool) (f : List Byte) : (s.start u f).fb = s.fb := rfl
@[simp] theorem State.start_border (u : Bool) (f : List Byte) : (s.start u f).border = s.border := rfl
@[simp] theorem State.start_hflip (u : Bool) (f : List Byte) : (s.start u f).hflip = s.hflip := rfl
@[simp] theorem State.start_vflip (u : Bool) (f : List Byte) : (s.start u f).vflip = s.vflip := rfl
@[simp] theorem State.start_rotation (u : Bool) (f : List Byte) : (s.start u f).rotation = s.rotation := rfl
@[simp] theorem State.start_phase (u : Bool) (f : List Byte) : (s.start u f).phase = .resetting := rfl
@[simp] theorem State.start_stepReg (u : Bool) (f : List Byte) : (s.start u f).stepReg = 0 := rfl
@[simp] theorem State.start_inUpdate (u : Bool) (f : List Byte) : (s.start u f).inUpdate = u := rfl
@[simp] theorem State.start_resetOut (u : Bool) (f : List Byte) : (s.start u f).resetOut = s.resetOut := rfl
@[simp] theorem State.start_dcOut (u : Bool) (f : List Byte) : (s.start u f).dcOut = s.dcOut := rfl
@[simp] theorem State.start_csOut (u : Bool) (f : List Byte) : (s.start u f).csOut = s.csOut := rfl
@[simp] theorem State.start_busyIn (u : Bool) (f : List Byte) : (s.start u f).busyIn = s.busyIn := rfl
@[simp] theorem State.start_timer (u : Bool) (f : List Byte) : (s.start u f).timer = s.timer := rfl
@[simp] theorem State.start_result (u : Bool) (f : List Byte) : (s.start u f).result = s.result := rfl
@[simp] theorem State.start_trace (u : Bool) (f : List Byte) : (s.start u f).trace = s.trace := rfl
@[simp] theorem State.start_reply (u : Bool) (f : List Byte) : (s.start u f).reply = s.reply := rfl
@[simp] theorem State.start_frame (u : Bool) (f : List Byte) : (s.start u f).frame = f := rfl
@[simp] theorem State.start_bus (u : Bool) (f : List Byte) : (s.start u f).bus = s.bus := rfl
@[simp] theorem State.start_lag (u : Bool) (f : List Byte) : (s.start u f).lag = s.lag := rfl
@[simp] theorem State.start_requests (u : Bool) (f : List Byte) : (s.start u f).requests = s.requests := rfl

/-! ### finish -/

@[simp] theorem State.finish_fb : (s.finish).fb = s.fb := rfl
@[simp] theorem State.finish_border : (s.finish).border = s.border := rfl
@[simp] theorem State.finish_hflip : (s.finish).hflip = s.hflip := rfl
@[simp] theorem State.finish_vflip : (s.finish).vflip = s.vflip := rfl
@[simp] theorem State.finish_rotation : (s.finish).rotation = s.rotation := rfl
@[simp] theorem State.finish_phase : (s.finish).phase = .idle := rfl
@[simp] theorem State.finish_stepReg : (s.finish).stepReg = 0 := rfl
@[simp] theorem State.finish_inUpdate : (s.finish).inUpdate = false := rfl
@[simp] theorem State.finish_resetOut : (s.finish).resetOut = s.resetOut := rfl
@[simp] theorem State.finish_dcOut : (s.finish).dcOut = s.dcOut := rfl
@[simp] theorem State.finish_csOut : (s.finish).csOut = s.csOut := rfl
@[simp] theorem State.finish_busyIn : (s.finish).busyIn = s.busyIn := rfl
@[simp] theorem State.finish_timer : (s.finish).timer = s.timer := rfl
@[simp] theorem State.finish_result : (s.finish).result = .ok := rfl
@[simp] theorem State.finish_trace : (s.finish).trace = s.trace := rfl
@[simp] theorem State.finish_reply : (s.finish).reply = .none := rfl
@[simp] theorem State.finish_frame : (s.finish).frame = [] := rfl
@[simp] theorem State.finish_bus : (s.finish).bus = s.bus := rfl
@[simp] theorem State.finish_lag : (s.finish).lag = s.lag := rfl
@[simp] theorem State.finish_requests : (s.finish).requests = s.requests := rfl

/-! ### raise -/

@[simp] theorem State.raise_fb (c : ResultCode) (v : Reply) : (s.raise c v).fb = s.fb := rfl
@[simp] theorem State.raise_border (c : ResultCode) (v : Reply) : (s.raise c v).border = s.border := rfl
@[simp] theorem State.raise_hflip (c : ResultCode) (v : Reply) : (s.raise c v).hflip = s.hflip := rfl
@[simp] theorem State.raise_vflip (c : ResultCode) (v : Reply) : (s.raise c v).vflip = s.vflip := rfl
@[simp] theorem State.raise_rotation (c : ResultCode) (v : Reply) : (s.raise c v).rotation = s.rotation := rfl
@[simp] theorem State.raise_phase (c : ResultCode) (v : Reply) : (s.raise c v).phase = .idle := rfl
@[simp] theorem State.raise_stepReg (c : ResultCode) (v : Reply) : (s.raise c v).stepReg = 0 := rfl
@[simp] theorem State.raise_inUpdate (c : ResultCode) (v : Reply) : (s.raise c v).inUpdate = false := rfl
@[simp] theorem State.raise_resetOut (c : ResultCode) (v : Reply) : (s.raise c v).resetOut = s.resetOut := rfl
@[simp] theorem State.raise_dcOut (c : ResultCode) (v : Reply) : (s.raise c v).dcOut = s.dcOut := rfl
@[simp] theorem State.raise_csOut (c : ResultCode) (v : Reply) : (s.raise c v).csOut = s.csOut := rfl
@[simp] theorem State.raise_busyIn (c : ResultCode) (v : Reply) : (s.raise c v).busyIn = s.busyIn := rfl
@[simp] theorem State.raise_timer (c : ResultCode) (v : Reply) : (s.raise c v).timer = s.timer := rfl
@[simp] theorem State.raise_result (c : ResultCode) (v : Reply) : (s.raise c v).result = c := rfl
@[simp] theorem State.raise_trace (c : ResultCode) (v : Reply) : (s.raise c v).trace = s.trace := rfl
@[simp] theorem State.raise_reply (c : ResultCode) (v : Reply) : (s.raise c v).reply = v := rfl
@[simp] theorem State.raise_frame (c : ResultCode) (v : Reply) : (s.raise c v).frame = [] := rfl
@[simp] theorem State.raise_bus (c : ResultCode) (v : Reply) : (s.raise c v).bus = s.bus := rfl
@[simp] theorem State.raise_lag (c : ResultCode) (v : Reply) : (s.raise c v).lag = s.lag := rfl
@[simp] theorem State.raise_requests (c : ResultCode) (v : Reply) : (s.raise c v).requests = s.requests := rfl

/-! ### complete -/

@[simp] theorem State.complete_fb (v : Reply) : (s.complete v).fb = s.fb := rfl
@[simp] theorem State.complete_border (v : Reply) : (s.complete v).border = s.border := rfl
@[simp] theorem State.complete_hflip (v : Reply) : (s.complete v).hflip = s.hflip := rfl
@[simp] theorem State.complete_vflip (v : Reply) : (s.complete v).vflip = s.vflip := rfl
@[simp] theorem State.complete_rotation (v : Reply) : (s.complete v).rotation = s.rotation := rfl
@[simp] theorem State.complete_phase (v : Reply) : (s.complete v).phase = s.phase := rfl
@[simp] theorem State.complete_stepReg (v : Reply) : (s.complete v).stepReg = s.stepReg := rfl
@[simp] theorem State.complete_inUpdate (v : Reply) : (s.complete v).inUpdate = s.inUpdate := rfl
@[simp] theorem State.complete_resetOut (v : Reply) : (s.complete v).resetOut = s.resetOut := rfl
@[simp] theorem State.complete_dcOut (v : Reply) : (s.complete v).dcOut = s.dcOut := rfl
@[simp] theorem State.complete_csOut (v : Reply) : (s.complete v).csOut = s.csOut := rfl
@[simp] theorem State.complete_busyIn (v : Reply) : (s.complete v).busyIn = s.busyIn := rfl
@[simp] theorem State.complete_timer (v : Reply) : (s.complete v).timer = s.timer := rfl
@[simp] theorem State.complete_result (v : Reply) : (s.complete v).result = .ok := rfl
@[simp] theorem State.complete_trace (v : Reply) : (s.complete v).trace = s.trace := rfl
@[simp] theorem State.complete_reply (v : Reply) : (s.complete v).reply = v := rfl
@[simp] theorem State.complete_frame (v : Reply) : (s.complete v).frame = s.frame := rfl
@[simp] theorem State.complete_bus (v : Reply) : (s.complete v).bus = s.bus := rfl
@[simp] theorem State.complete_lag (v : Reply) : (s.complete v).lag = s.lag := rfl
@[simp] theorem State.complete_requests (v : Reply) : (s.complete v).requests = s.requests := rfl

/-! ### sample -/

@[simp] theorem State.sample_level : s.sample.1 = s.busyIn.look.1 := rfl
@[simp] theorem State.sample_fb : s.sample.2.fb = s.fb := rfl
@[simp] theorem State.sample_border : s.sample.2.border = s.border := rfl
@[simp] theorem State.sample_hflip : s.sample.2.hflip = s.hflip := rfl
@[simp] theorem State.sample_vflip : s.sample.2.vflip = s.vflip := rfl
@[simp] theorem State.sample_rotation : s.sample.2.rotation = s.rotation := rfl
@[simp] theorem State.sample_phase : s.sample.2.phase = s.phase := rfl
@[simp] theorem State.sample_stepReg : s.sample.2.stepReg = s.stepReg := rfl
@[simp] theorem State.sample_inUpdate : s.sample.2.inUpdate = s.inUpdate := rfl
@[simp] theorem State.sample_resetOut : s.sample.2.resetOut = s.resetOut := rfl
@[simp] theorem State.sample_dcOut : s.sample.2.dcOut = s.dcOut := rfl
@[simp] theorem State.sample_csOut : s.sample.2.csOut = s.csOut := rfl
@[simp] theorem State.sample_busyIn : s.sample.2.busyIn = s.busyIn.look.2 := rfl
@[simp] theorem State.sample_timer : s.sample.2.timer = s.timer := rfl
@[simp] theorem State.sample_result : s.sample.2.result = s.result := rfl
@[simp] theorem State.sample_trace : s.sample.2.trace = s.trace ++ [.poll s.busyIn.look.1] := rfl
@[simp] theorem State.sample_reply : s.sample.2.reply = s.reply := rfl
@[simp] theorem State.sample_frame : s.sample.2.frame = s.frame := rfl
@[simp] theorem State.sample_bus : s.sample.2.bus = s.bus := rfl
@[simp] theorem State.sample_lag : s.sample.2.lag = s.lag := rfl
@[simp] theorem State.sample_requests : s.sample.2.requests = s.requests := rfl

/-! ### reset -/

@[simp] theorem State.reset_fb : State.reset.fb = [] := rfl
@[simp] theorem State.reset_border : State.reset.border = 1 := rfl
@[simp] theorem State.reset_hflip : State.reset.hflip = false := rfl
@[simp] theorem State.reset_vflip : State.reset.vflip = false := rfl
@[simp] theorem State.reset_rotation : State.reset.rotation = 0 := rfl
@[simp] theorem State.reset_phase : State.reset.phase = .idle := rfl
@[simp] theorem State.reset_stepReg : State.reset.stepReg = 0 := rfl
@[simp] theorem State.reset_inUpdate : State.reset.inUpdate = false := rfl
@[simp] theorem State.reset_resetOut : State.reset.resetOut = true := rfl
@[simp] theorem State.reset_dcOut : State.reset.dcOut = false := rfl
@[simp] theorem State.reset_csOut : State.reset.csOut = true := rfl
@[simp] theorem State.reset_busyIn : State.reset.busyIn = ⟨true, []⟩ := rfl
@[simp] theorem State.reset_timer : State.reset.timer = 0 := rfl
@[simp] theorem State.reset_result : State.reset.result = .ok := rfl
@[simp] theorem State.reset_trace : State.reset.trace = [] := rfl
@[simp] theorem State.reset_reply : State.reset.reply = .none := rfl
@[simp] theorem State.reset_frame : State.reset.frame = [] := rfl
@[simp] theorem State.reset_bus : State.reset.bus = ⟨true, []⟩ := rfl
@[simp] theorem State.reset_lag : State.reset.lag = ⟨0, []⟩ := rfl
@[simp] theorem State.reset_requests : State.reset.requests = [] := rfl

end Sys2Proof.Machine
end

