-- ==== Sys2Proof/Laws/Trace.lean ====
section
/-! SUPPORT. How the readings of TRACE behave when events are appended. -/

namespace Sys2Proof.Machine

@[simp] theorem resetLevel_append (b : Bool) (xs ys : List Event) :
    resetLevel b (xs ++ ys) = resetLevel (resetLevel b xs) ys := by
  induction xs generalizing b with
  | nil => rfl
  | cons e es ih => cases e <;> exact ih _

@[simp] theorem dcLevel_append (b : Bool) (xs ys : List Event) :
    dcLevel b (xs ++ ys) = dcLevel (dcLevel b xs) ys := by
  induction xs generalizing b with
  | nil => rfl
  | cons e es ih => cases e <;> exact ih _

@[simp] theorem csLevel_append (b : Bool) (xs ys : List Event) :
    csLevel b (xs ++ ys) = csLevel (csLevel b xs) ys := by
  induction xs generalizing b with
  | nil => rfl
  | cons e es ih => cases e <;> exact ih _

@[simp] theorem lastTransferFailed_append (b : Bool) (xs ys : List Event) :
    lastTransferFailed b (xs ++ ys) = lastTransferFailed (lastTransferFailed b xs) ys := by
  induction xs generalizing b with
  | nil => rfl
  | cons e es ih => cases e <;> exact ih _

@[simp] theorem byteStream_append (b : Bool) (xs ys : List Event) :
    byteStream b (xs ++ ys) = byteStream b xs ++ byteStream (dcLevel b xs) ys := by
  induction xs generalizing b with
  | nil => rfl
  | cons e es ih => cases e <;> simp [byteStream, dcLevel, ih]

@[simp] theorem polls_append (xs ys : List Event) : polls (xs ++ ys) = polls xs ++ polls ys := by
  induction xs with
  | nil => rfl
  | cons e es ih => cases e <;> simp [polls, ih]

end Sys2Proof.Machine
end

