-- ==== Sys2Proof/Laws/Ops.lean ====
section
/-! SUPPORT. What each shared operation over pins, bus, time and sequencer can do, said once. -/

namespace Sys2Proof.Machine

/-! ## What every primitive leaves alone -/

/-- `t` comes from `s` by pin, bus and time events alone: no memory, no configuration register, no
sequencer register, no result and no request is touched; TRACE grows and the pins follow it; TIMER does not
go back. -/
structure BusMove (s t : State) : Prop where
  fb : t.fb = s.fb
  border : t.border = s.border
  hflip : t.hflip = s.hflip
  vflip : t.vflip = s.vflip
  rotation : t.rotation = s.rotation
  phase : t.phase = s.phase
  stepReg : t.stepReg = s.stepReg
  inUpdate : t.inUpdate = s.inUpdate
  result : t.result = s.result
  reply : t.reply = s.reply
  frame : t.frame = s.frame
  requests : t.requests = s.requests
  trace : ∃ es, t.trace = s.trace ++ es
  pins : s.PinsOk → t.PinsOk
  timer : s.timer ≤ t.timer

theorem BusMove.refl (s : State) : BusMove s s :=
  ⟨rfl, rfl, rfl, rfl, rfl, rfl, rfl, rfl, rfl, rfl, rfl, rfl, ⟨[], (List.append_nil _).symm⟩, id, le_refl _⟩

theorem BusMove.trans {s t u : State} (h : BusMove s t) (k : BusMove t u) : BusMove s u where
  fb := k.fb.trans h.fb
  border := k.border.trans h.border
  hflip := k.hflip.trans h.hflip
  vflip := k.vflip.trans h.vflip
  rotation := k.rotation.trans h.rotation
  phase := k.phase.trans h.phase
  stepReg := k.stepReg.trans h.stepReg
  inUpdate := k.inUpdate.trans h.inUpdate
  result := k.result.trans h.result
  reply := k.reply.trans h.reply
  frame := k.frame.trans h.frame
  requests := k.requests.trans h.requests
  trace := by
    obtain ⟨es, he⟩ := h.trace
    obtain ⟨es', he'⟩ := k.trace
    exact ⟨es ++ es', by rw [he', he, List.append_assoc]⟩
  pins := fun p => k.pins (h.pins p)
  timer := h.timer.trans k.timer

/-- One event keeps the pins in step with TRACE if the pins move as the event says. -/
theorem pinsOk_append {s t : State} {e : Event} (ht : t.trace = s.trace ++ [e])
    (hr : t.resetOut = resetLevel s.resetOut [e]) (hd : t.dcOut = dcLevel s.dcOut [e])
    (hc : t.csOut = csLevel s.csOut [e]) (h : s.PinsOk) : t.PinsOk := by
  obtain ⟨h1, h2, h3⟩ := h
  exact ⟨by rw [ht, resetLevel_append, ← h1, hr], by rw [ht, dcLevel_append, ← h2, hd],
    by rw [ht, csLevel_append, ← h3, hc]⟩

theorem driveReset_busMove (b : Bool) (s : State) : BusMove s (s.driveReset b) :=
  ⟨rfl, rfl, rfl, rfl, rfl, rfl, rfl, rfl, rfl, rfl, rfl, rfl, ⟨_, rfl⟩,
    pinsOk_append rfl rfl rfl rfl, le_refl _⟩

theorem driveDc_busMove (b : Bool) (s : State) : BusMove s (s.driveDc b) :=
  ⟨rfl, rfl, rfl, rfl, rfl, rfl, rfl, rfl, rfl, rfl, rfl, rfl, ⟨_, rfl⟩,
    pinsOk_append rfl rfl rfl rfl, le_refl _⟩

theorem driveCs_busMove (b : Bool) (s : State) : BusMove s (s.driveCs b) :=
  ⟨rfl, rfl, rfl, rfl, rfl, rfl, rfl, rfl, rfl, rfl, rfl, rfl, ⟨_, rfl⟩,
    pinsOk_append rfl rfl rfl rfl, le_refl _⟩

theorem delay_busMove (d : Duration) (s : State) : BusMove s (s.delay d) :=
  ⟨rfl, rfl, rfl, rfl, rfl, rfl, rfl, rfl, rfl, rfl, rfl, rfl, ⟨_, rfl⟩,
    pinsOk_append rfl rfl rfl rfl,
    by simp only [State.delay_timer]; omega⟩

theorem sample_busMove (s : State) : BusMove s s.sample.2 :=
  ⟨rfl, rfl, rfl, rfl, rfl, rfl, rfl, rfl, rfl, rfl, rfl, rfl, ⟨_, rfl⟩,
    pinsOk_append rfl rfl rfl rfl, le_refl _⟩

/-- A transfer ends with OK or TransportFailure, as the transport answers (45_transport.md R246). -/
theorem xfer_ok {c : List Byte} {s : State} (h : s.bus.look.1 = true) :
    s.xfer c = ({ s with bus := s.bus.look.2, trace := s.trace ++ [.xfer c] }, .ok) := by
  simp [State.xfer, h]

theorem xfer_fail {c : List Byte} {s : State} (h : s.bus.look.1 = false) :
    s.xfer c = ({ s with bus := s.bus.look.2, trace := s.trace ++ [.xfail c] }, .transportFailure) := by
  simp [State.xfer, h]

theorem xfer_busMove (c : List Byte) (s : State) : BusMove s (s.xfer c).1 := by
  cases h : s.bus.look.1
  · rw [xfer_fail h]
    exact ⟨rfl, rfl, rfl, rfl, rfl, rfl, rfl, rfl, rfl, rfl, rfl, rfl, ⟨_, rfl⟩,
      pinsOk_append rfl rfl rfl rfl, le_refl _⟩
  · rw [xfer_ok h]
    exact ⟨rfl, rfl, rfl, rfl, rfl, rfl, rfl, rfl, rfl, rfl, rfl, rfl, ⟨_, rfl⟩,
      pinsOk_append rfl rfl rfl rfl, le_refl _⟩

/-! ## Sequencing of actions -/

@[simp] theorem andThen_ok (s : State) (k : State → Ended) : andThen (s, .ok) k = k s := rfl

theorem andThen_error {r : Ended} (k : State → Ended) (h : r.2 ≠ .ok) : andThen r k = r := by
  simp [andThen, h]

/-- A sequence of two actions either stops at the first one's error or ends as the second does. -/
theorem andThen_cases (r : Ended) (k : State → Ended) :
    (r.2 ≠ .ok ∧ andThen r k = r) ∨ (r.2 = .ok ∧ andThen r k = k r.1) := by
  by_cases h : r.2 = .ok
  · exact .inr ⟨h, by simp [andThen, h]⟩
  · exact .inl ⟨h, andThen_error k h⟩

theorem andThen_busMove {s : State} {r : Ended} {k : State → Ended} (hr : BusMove s r.1)
    (hk : ∀ t, BusMove t (k t).1) : BusMove s (andThen r k).1 := by
  rcases andThen_cases r k with ⟨_, h⟩ | ⟨_, h⟩
  · rw [h]; exact hr
  · rw [h]; exact hr.trans (hk _)

/-! ## Inputs -/

theorem Input.always.look {α : Type} {v : α} {i : Input α} (h : i.always v) :
    i.look.1 = v ∧ i.look.2.always v := by
  obtain ⟨now, next⟩ := i
  obtain ⟨h1, h2⟩ := h
  cases next with
  | nil => exact ⟨h1, h1, h2⟩
  | cons w ws =>
    exact ⟨h2 w List.mem_cons_self, h2 w List.mem_cons_self, fun x hx => h2 x (List.mem_cons_of_mem _ hx)⟩

theorem Input.always.after {α : Type} {v : α} {i : Input α} (h : i.always v) (n : Nat) :
    (i.after n).always v := by
  induction n generalizing i with
  | zero => exact h
  | succ n ih => exact ih h.look.2

/-! ## The sequencer registers -/

/-- Before position 24 `advance` moves to the next position and its phase. -/
theorem advance_next {s : State} (h : s.stepReg.val + 1 < 25) :
    s.advance = { s with
      stepReg := ⟨s.stepReg.val + 1, h⟩, phase := phaseOf ⟨s.stepReg.val + 1, h⟩ } := by
  simp [State.advance, h]

theorem advance_last {s : State} (h : s.stepReg.val = 24) : s.advance = s.finish := by
  simp [State.advance, h]

theorem phaseOf_ne_idle (n : Fin 25) : phaseOf n ≠ .idle := by
  revert n; decide

end Sys2Proof.Machine
end

