-- ==== Sys2Proof/Laws/Bus.lean ====
section
/-! SUPPORT. What WRITE, SEND_COMMAND, AWAIT_READY and a wire command can do, said once each. -/

namespace Sys2Proof.Machine

/-! ## Transfers -/

theorem xferAll_busMove (cs : List (List Byte)) (s : State) : BusMove s (State.xferAll cs s).1 := by
  induction cs generalizing s with
  | nil => exact BusMove.refl s
  | cons c cs ih => exact andThen_busMove (xfer_busMove c s) ih

/-- A run of transfers ends with OK or with the failure of its last one; it drives no pin. -/
theorem xferAll_result (cs : List (List Byte)) (s : State) :
    (State.xferAll cs s).2 = .ok ∨
    ((State.xferAll cs s).2 = .transportFailure ∧
      lastTransferFailed false (State.xferAll cs s).1.trace = true) := by
  induction cs generalizing s with
  | nil => exact .inl rfl
  | cons c cs ih =>
    unfold State.xferAll
    cases h : s.bus.look.1
    · rw [xfer_fail h]
      right
      simp [andThen, lastTransferFailed]
    · rw [xfer_ok h, andThen_ok]
      exact ih _

/-- Transfers that all succeed: one XFER a chunk, one answer of the transport a chunk, nothing else. -/
theorem xferAll_ok (cs : List (List Byte)) {s : State} (h : s.busGood) :
    State.xferAll cs s =
      ({ s with bus := s.bus.after cs.length, trace := s.trace ++ cs.map .xfer }, .ok) := by
  induction cs generalizing s with
  | nil => simp [State.xferAll, Input.after]
  | cons c cs ih =>
    unfold State.xferAll
    rw [xfer_ok h.look.1, andThen_ok, ih h.look.2]
    simp [Input.after]

/-! ## WRITE -/

theorem logicalWrite_busMove (d : Bool) (bytes : List Byte) (s : State) :
    BusMove s (s.logicalWrite d bytes).1 :=
  andThen_busMove
    (((driveCs_busMove _ s).trans (driveDc_busMove _ _)).trans (xferAll_busMove _ _))
    fun t => driveCs_busMove _ t

/-- WRITE ends with OK and chip-select deasserted, or with TransportFailure right after the failed
transfer (45_transport.md R240, R246, R247). -/
theorem logicalWrite_result (d : Bool) (bytes : List Byte) (s : State) :
    ((s.logicalWrite d bytes).2 = .ok ∧ (s.logicalWrite d bytes).1.csOut = config.csDeasserted) ∨
    ((s.logicalWrite d bytes).2 = .transportFailure ∧
      lastTransferFailed false (s.logicalWrite d bytes).1.trace = true) := by
  unfold State.logicalWrite
  rcases xferAll_result (chunks bytes) ((s.driveCs config.csAsserted).driveDc
      (if d then config.dataLevel else config.commandLevel)) with h | ⟨h, h'⟩
  · left
    simp [andThen, h]
  · right
    rw [andThen_error _ (by rw [h]; decide)]
    exact ⟨h, h'⟩

/-- A WRITE whose transfers succeed. -/
theorem logicalWrite_ok (d : Bool) (bytes : List Byte) {s : State} (h : s.busGood) :
    s.logicalWrite d bytes =
      ({ s with
          csOut := config.csDeasserted
          dcOut := if d then config.dataLevel else config.commandLevel
          bus := s.bus.after (chunks bytes).length
          trace := s.trace ++ writeEvents d bytes }, .ok) := by
  have hg : ((s.driveCs config.csAsserted).driveDc
      (if d then config.dataLevel else config.commandLevel)).busGood := h
  unfold State.logicalWrite
  rw [xferAll_ok _ hg, andThen_ok]
  simp [State.driveCs, State.driveDc, writeEvents]

/-! ## SEND_COMMAND -/

theorem sendCommand_busMove (op : Byte) (data : List Byte) (s : State) :
    BusMove s (s.sendCommand op data).1 := by
  refine andThen_busMove (logicalWrite_busMove _ _ _) fun t => ?_
  split
  · exact BusMove.refl t
  · exact logicalWrite_busMove _ _ _

/-- SEND_COMMAND ends as its last write does (43_protocol_driver.md R194). -/
theorem sendCommand_result (op : Byte) (data : List Byte) (s : State) :
    ((s.sendCommand op data).2 = .ok ∧ (s.sendCommand op data).1.csOut = config.csDeasserted) ∨
    ((s.sendCommand op data).2 = .transportFailure ∧
      lastTransferFailed false (s.sendCommand op data).1.trace = true) := by
  unfold State.sendCommand
  rcases logicalWrite_result false [op] s with ⟨h, h'⟩ | ⟨h, h'⟩
  · rcases andThen_cases (s.logicalWrite false [op])
        (fun s => if data = [] then (s, .ok) else s.logicalWrite true data) with ⟨hn, _⟩ | ⟨_, he⟩
    · exact absurd h hn
    · rw [he]
      by_cases hd : data = []
      · simp [hd, h']
      · simp only [if_neg hd]
        exact logicalWrite_result true data _
  · right
    rw [andThen_error _ (by rw [h]; decide)]
    exact ⟨h, h'⟩

/-- The number of transfers of a wire command. -/
def commandTransfers (data : List Byte) : Nat := 1 + (chunks data).length

/-- The DC level a wire command leaves behind (45_transport.md R240). -/
def commandDc (data : List Byte) : Bool := if data = [] then config.commandLevel else config.dataLevel

theorem Input.after_add {α : Type} (i : Input α) (m n : Nat) :
    (i.after m).after n = i.after (m + n) := by
  induction m generalizing i with
  | zero => simp [Input.after]
  | succ m ih => rw [Nat.succ_add]; exact ih _

theorem chunks_nil : chunks [] = [] := by
  simp [chunks, numChunks, config]

theorem chunks_singleton (b : Byte) : chunks [b] = [[b]] := by
  simp [chunks, numChunks, config]

/-- A SEND_COMMAND whose transfers succeed. -/
theorem sendCommand_ok (op : Byte) (data : List Byte) {s : State} (h : s.busGood) :
    s.sendCommand op data =
      ({ s with
          csOut := config.csDeasserted
          dcOut := commandDc data
          bus := s.bus.after (commandTransfers data)
          trace := s.trace ++ commandEvents op data }, .ok) := by
  unfold State.sendCommand
  rw [logicalWrite_ok false [op] h, andThen_ok]
  by_cases hd : data = []
  · subst hd
    simp [commandDc, commandTransfers, commandEvents, chunks_nil, chunks_singleton]
  · rw [if_neg hd, logicalWrite_ok true data (h.after _)]
    simp [commandDc, commandTransfers, commandEvents, hd, chunks_singleton, Input.after_add]

/-! ## AWAIT_READY -/

theorem awaitLoop_busMove (timeout t0 fuel : Nat) (s : State) :
    BusMove s (s.awaitLoop timeout t0 fuel).1 := by
  induction fuel generalizing s with
  | zero => exact BusMove.refl s
  | succ n ih =>
    unfold State.awaitLoop
    split_ifs
    · exact sample_busMove s
    · exact (sample_busMove s).trans (delay_busMove _ _)
    · exact ((sample_busMove s).trans (delay_busMove _ _)).trans (ih _)

/-- A wait drives no pin and makes no transfer, and ends with OK or BusyTimeout (43_protocol_driver.md
R190). -/
theorem awaitLoop_result (timeout t0 fuel : Nat) (s : State) :
    ((s.awaitLoop timeout t0 fuel).2 = .ok ∨ (s.awaitLoop timeout t0 fuel).2 = .busyTimeout) ∧
    (s.awaitLoop timeout t0 fuel).1.csOut = s.csOut ∧
    (s.awaitLoop timeout t0 fuel).1.dcOut = s.dcOut ∧
    (s.awaitLoop timeout t0 fuel).1.resetOut = s.resetOut ∧
    (s.awaitLoop timeout t0 fuel).1.bus = s.bus ∧
    (∀ b, lastTransferFailed b (s.awaitLoop timeout t0 fuel).1.trace = lastTransferFailed b s.trace) := by
  induction fuel generalizing s with
  | zero => exact ⟨.inr rfl, rfl, rfl, rfl, rfl, fun _ => rfl⟩
  | succ n ih =>
    unfold State.awaitLoop
    split_ifs
    · exact ⟨.inl rfl, rfl, rfl, rfl, rfl, fun b => by simp [lastTransferFailed]⟩
    · exact ⟨.inr rfl, rfl, rfl, rfl, rfl, fun b => by simp [lastTransferFailed]⟩
    · obtain ⟨h1, h2, h3, h4, h5, h6⟩ := ih (s.sample.2.delay config.pollInterval)
      refine ⟨h1, h2, h3, h4, h5, fun b => ?_⟩
      rw [h6 b]
      simp [lastTransferFailed]

theorem awaitReady_busMove (timeout : Duration) (s : State) : BusMove s (s.awaitReady timeout).1 :=
  awaitLoop_busMove _ _ _ s

theorem maxSamples_pos (timeout : Duration) : ∃ n, maxSamples timeout = n + 1 :=
  ⟨maxSamples timeout - 1, by unfold maxSamples; omega⟩

/-- A wait whose first sample reads 1 returns at once with one POLL(1) (43_protocol_driver.md R190). -/
theorem awaitReady_at_once (timeout : Duration) {s : State} (h : s.busyIn.look.1 = true) :
    s.awaitReady timeout = (s.sample.2, .ok) := by
  obtain ⟨n, hn⟩ := maxSamples_pos timeout
  unfold State.awaitReady
  rw [hn]
  unfold State.awaitLoop
  simp [h]

/-! ## Ending -/

theorem settleMicro_ok {r : Ended} (h : r.2 = .ok) : settleMicro r = r.1.advance := by
  simp [settleMicro, h]

theorem settleMicro_error {r : Ended} (h : r.2 ≠ .ok) : settleMicro r = r.1.raise r.2 .none := by
  simp [settleMicro, h]

theorem settle_ok {r : Ended} (h : r.2 = .ok) : settle r = r.1.complete .none := by
  simp [settle, h]

theorem settle_error {r : Ended} (h : r.2 ≠ .ok) : settle r = r.1.raise r.2 .none := by
  simp [settle, h]

theorem whenIdle_idle {s : State} (k : State → Answer) (h : s.phase = .idle) :
    whenIdle s k = k s := by
  simp [whenIdle, h]

theorem whenIdle_running {s : State} (k : State → Answer) (h : s.phase ≠ .idle) :
    whenIdle s k = .fault .requestWhileRunning := by
  simp [whenIdle, h]

/-- Whatever a block operation answers as a next state, it answers on an Idle block. -/
theorem whenIdle_next {s t : State} {k : State → Answer} (h : whenIdle s k = .next t) :
    s.phase = .idle ∧ k s = .next t := by
  by_cases hp : s.phase = .idle
  · exact ⟨hp, by rwa [whenIdle_idle k hp] at h⟩
  · rw [whenIdle_running k hp] at h
    exact absurd h (by simp)

end Sys2Proof.Machine
end

