-- ==== Sys2Proof/Laws/Await.lean ====
section
/-! SUPPORT. What a wait can do, round by round and as a whole (43_protocol_driver.md R190 to R192). -/

namespace Sys2Proof.Machine

/-- A round that samples 1 ends the wait. -/
theorem awaitLoop_ready {T t0 n : Nat} {s : State} (h : s.busyIn.look.1 = true) : s.awaitLoop T t0 (n+1) = (s.sample.2, .ok) := by
  unfold State.awaitLoop; exact if_pos h

/-- A round that samples 0 and sleeps past the timeout ends the wait with BusyTimeout. -/
theorem awaitLoop_late {T t0 n : Nat} {s : State} (h : s.busyIn.look.1 = false) (hT : T ≤ (s.sample.2.delay config.pollInterval).timer - t0) :
    s.awaitLoop T t0 (n+1) = (s.sample.2.delay config.pollInterval, .busyTimeout) := by
  unfold State.awaitLoop
  rw [if_neg (show ¬ s.sample.1 = true by rw [show s.sample.1 = false from h]; simp), if_pos hT]

/-- Any other round goes on. -/
theorem awaitLoop_again {T t0 n : Nat} {s : State} (h : s.busyIn.look.1 = false) (hT : ¬ T ≤ (s.sample.2.delay config.pollInterval).timer - t0) :
    s.awaitLoop T t0 (n+1) = (s.sample.2.delay config.pollInterval).awaitLoop T t0 n := by
  conv_lhs => unfold State.awaitLoop
  rw [if_neg (show ¬ s.sample.1 = true by rw [show s.sample.1 = false from h]; simp), if_neg hT]

/-- How the poll loop ends, when the samples left are enough to reach the timeout. -/
theorem awaitLoop_spec (T t0 fuel : Nat) (s : State) (ht : t0 ≤ s.timer) (hf : T ≤ s.timer - t0 + fuel * config.pollInterval) (hpos : 0 < fuel) :
    ∃ m, (s.awaitLoop T t0 fuel).1.trace = s.trace ++ pollPairs m ++ (if (s.awaitLoop T t0 fuel).2 = .ok then [.poll true] else []) ∧
      (((s.awaitLoop T t0 fuel).2 = .ok ∧ m < fuel) ∨ ((s.awaitLoop T t0 fuel).2 = .busyTimeout ∧ 1 ≤ m ∧ m ≤ fuel ∧ t0 + T ≤ (s.awaitLoop T t0 fuel).1.timer)) := by
  induction fuel generalizing s with
  | zero => omega
  | succ n ih =>
    cases hs : s.sample.1
    · by_cases hT : T ≤ (s.sample.2.delay config.pollInterval).timer - t0
      · have hA : s.awaitLoop T t0 (n+1) = (s.sample.2.delay config.pollInterval, .busyTimeout) := by
          exact awaitLoop_late hs hT
        rw [hA]
        refine ⟨1, ?_, .inr ⟨rfl, le_refl _, by omega, ?_⟩⟩
        · have : s.busyIn.look.1 = false := hs
          simp [pollPairs, this]
        · have := (sample_busMove s).timer.trans (delay_busMove config.pollInterval s.sample.2).timer
          show t0 + T ≤ (s.sample.2.delay config.pollInterval).timer
          omega
      · have hA : s.awaitLoop T t0 (n+1) = (s.sample.2.delay config.pollInterval).awaitLoop T t0 n := by
          conv_lhs => unfold State.awaitLoop
          simp only [hs, Bool.false_eq_true, if_false, if_neg hT]
        rw [hA]
        have htm : (s.sample.2.delay config.pollInterval).timer = s.timer + config.pollInterval + s.lag.look.1 := rfl
        have hn : 0 < n := by
          rcases Nat.eq_zero_or_pos n with rfl | h
          · exfalso; rw [htm] at hT; omega
          · exact h
        obtain ⟨m, h1, h2⟩ := ih (s.sample.2.delay config.pollInterval) (by rw [htm]; omega) (by rw [htm]; rw [Nat.succ_mul] at hf; omega) hn
        refine ⟨m + 1, ?_, ?_⟩
        · rw [h1]
          have : s.busyIn.look.1 = false := hs
          simp [pollPairs, this]
        · rcases h2 with ⟨h, h'⟩ | ⟨h, h', h'', h'''⟩
          · exact .inl ⟨h, by omega⟩
          · exact .inr ⟨h, by omega, by omega, h'''⟩
    · have hA : s.awaitLoop T t0 (n+1) = (s.sample.2, .ok) := by
        exact awaitLoop_ready hs
      rw [hA]
      refine ⟨0, ?_, .inl ⟨rfl, by omega⟩⟩
      have : s.busyIn.look.1 = true := hs
      simp [pollPairs, this]

/-- So many sleeps reach the timeout (43_protocol_driver.md R191). -/
theorem maxSamples_bound (T : Duration) : T ≤ maxSamples T * config.pollInterval := by
  have : config.pollInterval = (10 : Nat) := rfl
  unfold maxSamples; simp only [this]
  change (T : Nat) ≤ _
  have h2 : ∀ n : Nat, n ≤ (n + 10 - 1) / 10 * 10 := by intro n; omega
  exact (h2 T).trans (Nat.mul_le_mul_right _ (le_max_right _ _))

/-- The two outcomes of a wait (43_protocol_driver.md R192). -/
theorem await_spec (T : Duration) (s : State) :
    ∃ m, (s.awaitReady T).1.trace = s.trace ++ pollPairs m ++ (if (s.awaitReady T).2 = .ok then [.poll true] else []) ∧
      (((s.awaitReady T).2 = .ok ∧ m < maxSamples T) ∨ ((s.awaitReady T).2 = .busyTimeout ∧ 1 ≤ m ∧ m ≤ maxSamples T ∧ s.timer + T ≤ (s.awaitReady T).1.timer)) := by
  obtain ⟨n, hn⟩ := maxSamples_pos T
  exact awaitLoop_spec T s.timer _ s (le_refl _) ((maxSamples_bound T).trans (Nat.le_add_left _ _)) (by omega)

/-- A wait drives no pin. -/
theorem await_frame (T : Duration) (s : State) : (s.awaitReady T).1.csOut = s.csOut ∧ (s.awaitReady T).1.dcOut = s.dcOut ∧ (s.awaitReady T).1.resetOut = s.resetOut := by
  have := awaitLoop_result T s.timer (maxSamples T) s
  exact ⟨this.2.1, this.2.2.1, this.2.2.2.1⟩

/-- A pin that never reads 1 ends the wait with BusyTimeout. -/
theorem awaitLoop_stuck (T t0 fuel : Nat) (s : State) (h : s.pinStuck) : (s.awaitLoop T t0 fuel).2 = .busyTimeout := by
  induction fuel generalizing s with
  | zero => rfl
  | succ n ih =>
    unfold State.awaitLoop
    have : s.sample.1 = false := h.look.1
    simp only [this, Bool.false_eq_true, if_false]
    split_ifs
    · rfl
    · exact ih _ h.look.2

/-- With sleeps no longer than asked, a pin that reads 1 after `m` samples of 0 ends the wait there. -/
theorem awaitLoop_answer (T t0 : Nat) (m : Nat) (fuel : Nat) (s : State) (rest : List Bool) (hl : s.lag.always 0) (ht : t0 ≤ s.timer)
    (hn : s.busyIn.next = List.replicate m false ++ true :: rest) (hm : s.timer - t0 + m * config.pollInterval < T) (hf : m < fuel) :
    (s.awaitLoop T t0 fuel).2 = .ok ∧ (s.awaitLoop T t0 fuel).1.trace = s.trace ++ pollPairs m ++ [.poll true] ∧ (s.awaitLoop T t0 fuel).1.busyIn.next = rest := by
  induction m generalizing fuel s with
  | zero =>
    obtain ⟨n, rfl⟩ : ∃ n, fuel = n + 1 := ⟨fuel - 1, by omega⟩
    simp only [List.replicate_zero, List.nil_append] at hn
    have hs : s.sample.1 = true := by simp [State.sample, Input.look, hn]
    have hA : s.awaitLoop T t0 (n+1) = (s.sample.2, .ok) := by
      exact awaitLoop_ready hs
    rw [hA]
    simp [pollPairs, State.sample, Input.look, hn]
  | succ m ih =>
    obtain ⟨n, rfl⟩ : ∃ n, fuel = n + 1 := ⟨fuel - 1, by omega⟩
    have hs : s.sample.1 = false := by simp [State.sample, Input.look, hn, List.replicate_succ]
    have htm : (s.sample.2.delay config.pollInterval).timer = s.timer + config.pollInterval + s.lag.look.1 := rfl
    rw [hl.look.1] at htm
    rw [Nat.succ_mul] at hm
    have hA : s.awaitLoop T t0 (n+1) = (s.sample.2.delay config.pollInterval).awaitLoop T t0 n := by
      conv_lhs => unfold State.awaitLoop
      simp only [hs, Bool.false_eq_true, if_false]
      rw [if_neg (by rw [htm]; omega)]
    rw [hA]
    have hb : (s.sample.2.delay config.pollInterval).busyIn.next = List.replicate m false ++ true :: rest := by
      simp [State.sample, State.delay, Input.look, hn, List.replicate_succ]
    obtain ⟨h1, h2, h3⟩ := ih n (s.sample.2.delay config.pollInterval) hl.look.2 (by rw [htm]; omega) hb (by rw [htm]; omega) (by omega)
    refine ⟨h1, ?_, h3⟩
    rw [h2]
    have : s.busyIn.look.1 = false := hs
    simp [pollPairs, this]

end Sys2Proof.Machine
end

