-- ==== Sys2Proof/Laws/Codec.lean ====
section
/-! SUPPORT. The operand readers undo the operand writers. -/

namespace Sys2Proof

@[simp] theorem flagOf_intOfFlag (b : Bool) : flagOf (intOfFlag b) = some b := by
  cases b <;> rfl

@[simp] theorem byteOf_toNat (b : Byte) : byteOf (b.toNat : Int) = some b := by
  have h : b.toNat < 256 := b.isLt
  unfold byteOf
  rw [if_pos ⟨by omega, by omega⟩]
  simp

@[simp] theorem colourOf_toNat (c : Colour) : colourOf (c.toNat : Int) = some c := by
  have h : c.toNat < 8 := c.isLt
  unfold colourOf
  rw [if_pos ⟨by omega, by omega⟩]
  simp

@[simp] theorem durationOf_ofNat (d : Duration) : durationOf (d : Int) = some d := by
  unfold durationOf
  rw [if_pos (Int.natCast_nonneg d)]
  simp

@[simp] theorem coloursOf_map_toNat (v : List Colour) :
    coloursOf (v.map fun c => (c.toNat : Int)) = some v := by
  induction v with
  | nil => rfl
  | cons c cs ih =>
    simp only [List.map_cons, coloursOf, colourOf_toNat]
    rw [ih]

/-- A request whose selector and operands are read back as a well-formed instruction decodes to it. -/
theorem decode_of_operands {e : Encoded} {opsel : Byte} {ops : List Operand}
    {f : List Operand → Option Instr} {i : Instr} (he : e = .request ⟨opsel, ops⟩)
    (h1 : operandDecoder opsel = some f) (h2 : f ops = some i) (h3 : i.wf = true) :
    decode e = .ok i := by
  simp [he, decode, decodeRequest, h1, h2, h3]

/-- A request that decodes to an instruction decodes to a well-formed one. -/
theorem decodeRequest_wf {r : Request} {i : Instr} (h : decodeRequest r = .ok i) : i.wf = true := by
  unfold decodeRequest at h
  split at h
  · exact absurd h (by simp)
  · split at h
    · exact absurd h (by simp)
    · split at h
      · rename_i hwf
        cases h
        exact hwf
      · exact absurd h (by simp)

/-- The opcode of a wire command is read back as that command. -/
theorem wireCommandOf_opcode (c : WireCommand) : wireCommandOf c.opcode = some c := by
  cases c <;> rfl

end Sys2Proof
end

