-- ==== Sys2Proof/Laws/Sequencer.lean ====
section
/-! SUPPORT. What one micro-step and a whole sequence can do, said once. -/

namespace Sys2Proof.Machine

/-- A micro-step makes pin, bus and time events and then moves to the next position, ends the sequence, or
takes an error (43_protocol_driver.md R201). -/
inductive MicroEnd (s : State) : State → Prop where
  | advance {u : State} (h : BusMove s u) : MicroEnd s u.advance
  | finish  {u : State} (h : BusMove s u) : MicroEnd s u.finish
  | busy    {u : State} (h : BusMove s u) : MicroEnd s (u.raise .busyTimeout .none)
  | failed  {u : State} (h : BusMove s u) : MicroEnd s (u.raise .transportFailure .none)

theorem sendWire_busMove (c : WireCommand) (s : State) : BusMove s (s.sendWire c).1 :=
  sendCommand_busMove _ _ s

/-- A wire command ends with OK and chip-select deasserted, or with TransportFailure. -/
theorem sendWire_result (c : WireCommand) (s : State) :
    ((s.sendWire c).2 = .ok ∧ (s.sendWire c).1.csOut = config.csDeasserted) ∨
    ((s.sendWire c).2 = .transportFailure ∧
      lastTransferFailed false (s.sendWire c).1.trace = true) :=
  sendCommand_result _ _ s

theorem settleMicro_sendWire (c : WireCommand) (s : State) : MicroEnd s (settleMicro (s.sendWire c)) := by
  rcases sendWire_result c s with ⟨h, _⟩ | ⟨h, _⟩
  · rw [settleMicro_ok h]; exact .advance (sendWire_busMove c s)
  · rw [settleMicro_error (by rw [h]; decide), h]; exact .failed (sendWire_busMove c s)

theorem settleMicro_awaitReady (timeout : Duration) (s : State) :
    MicroEnd s (settleMicro (s.awaitReady timeout)) := by
  rcases (awaitLoop_result timeout s.timer (maxSamples timeout) s).1 with h | h
  · have h' : (s.awaitReady timeout).2 = .ok := h
    rw [settleMicro_ok h']; exact .advance (awaitReady_busMove _ s)
  · have h' : (s.awaitReady timeout).2 = .busyTimeout := h
    rw [settleMicro_error (by rw [h']; decide), h']; exact .busy (awaitReady_busMove _ s)

/-- Every action of the microprogram ends in one of the four ways. -/
theorem microAction_end (op : MicroOp) (s : State) : MicroEnd s (s.microAction op) := by
  cases op with
  | driveReset b => exact .advance (driveReset_busMove b s)
  | wait d => exact .advance (delay_busMove d s)
  | await => exact settleMicro_awaitReady _ s
  | send c => exact settleMicro_sendWire c s
  | endSetup =>
    unfold State.microAction
    split_ifs
    · exact .advance (BusMove.refl s)
    · exact .finish (BusMove.refl s)
  | endUpdate => exact .finish (BusMove.refl s)

theorem microStep_end (s : State) : MicroEnd s s.microStep := microAction_end _ s

/-- At the position of a wire command the microprogram sends it. -/
theorem microOp_position (c : WireCommand) : microOp (microPosition c) = .send c := by
  cases c <;> rfl

/-- A running sequence runs a wire command as its micro-step does. -/
theorem runWire_running {c : WireCommand} {s : State} (h : s.phase ≠ .idle) :
    s.runWire c = settleMicro (s.sendWire c) := by
  simp [State.runWire, h]

/-! ## Unfolding a run one micro-step at a time -/

@[simp] theorem runSequence_zero (s : State) : s.runSequence 0 = s := rfl

theorem runSequence_idle {n : Nat} {s : State} (h : s.phase = .idle) : s.runSequence n = s := by
  cases n with
  | zero => rfl
  | succ n => simp [State.runSequence, h]

theorem runSequence_succ {n : Nat} {s : State} (h : s.phase ≠ .idle) :
    s.runSequence (n + 1) = s.microStep.runSequence n := by
  simp [State.runSequence, h]

/-! ## What a sequence leaves alone -/

/-- `t` comes from `s` by a sequence: no memory, no configuration register and no request is touched, TRACE
grows and the pins follow it. -/
structure SequenceMove (s t : State) : Prop where
  fb : t.fb = s.fb
  border : t.border = s.border
  hflip : t.hflip = s.hflip
  vflip : t.vflip = s.vflip
  rotation : t.rotation = s.rotation
  requests : t.requests = s.requests
  trace : ∃ es, t.trace = s.trace ++ es
  pins : s.PinsOk → t.PinsOk

theorem SequenceMove.refl (s : State) : SequenceMove s s :=
  ⟨rfl, rfl, rfl, rfl, rfl, rfl, ⟨[], (List.append_nil _).symm⟩, id⟩

theorem SequenceMove.trans {s t u : State} (h : SequenceMove s t) (k : SequenceMove t u) :
    SequenceMove s u where
  fb := k.fb.trans h.fb
  border := k.border.trans h.border
  hflip := k.hflip.trans h.hflip
  vflip := k.vflip.trans h.vflip
  rotation := k.rotation.trans h.rotation
  requests := k.requests.trans h.requests
  trace := by
    obtain ⟨es, he⟩ := h.trace
    obtain ⟨es', he'⟩ := k.trace
    exact ⟨es ++ es', by rw [he', he, List.append_assoc]⟩
  pins := fun p => k.pins (h.pins p)

theorem BusMove.sequenceMove {s t : State} (h : BusMove s t) : SequenceMove s t :=
  ⟨h.fb, h.border, h.hflip, h.vflip, h.rotation, h.requests, h.trace, h.pins⟩

theorem finish_sequenceMove (s : State) : SequenceMove s s.finish :=
  ⟨rfl, rfl, rfl, rfl, rfl, rfl, ⟨[], (List.append_nil _).symm⟩, id⟩

theorem raise_sequenceMove (c : ResultCode) (v : Reply) (s : State) : SequenceMove s (s.raise c v) :=
  ⟨rfl, rfl, rfl, rfl, rfl, rfl, ⟨[], (List.append_nil _).symm⟩, id⟩

theorem start_sequenceMove (u : Bool) (f : List Byte) (s : State) : SequenceMove s (s.start u f) :=
  ⟨rfl, rfl, rfl, rfl, rfl, rfl, ⟨[], (List.append_nil _).symm⟩, id⟩

theorem advance_sequenceMove (s : State) : SequenceMove s s.advance := by
  unfold State.advance
  split_ifs
  · exact ⟨rfl, rfl, rfl, rfl, rfl, rfl, ⟨[], (List.append_nil _).symm⟩, id⟩
  · exact finish_sequenceMove s

theorem MicroEnd.sequenceMove {s t : State} (h : MicroEnd s t) : SequenceMove s t := by
  cases h with
  | advance h => exact h.sequenceMove.trans (advance_sequenceMove _)
  | finish h => exact h.sequenceMove.trans (finish_sequenceMove _)
  | busy h => exact h.sequenceMove.trans (raise_sequenceMove _ _ _)
  | failed h => exact h.sequenceMove.trans (raise_sequenceMove _ _ _)

theorem runSequence_sequenceMove (n : Nat) (s : State) : SequenceMove s (s.runSequence n) := by
  induction n generalizing s with
  | zero => exact SequenceMove.refl s
  | succ n ih =>
    by_cases h : s.phase = .idle
    · rw [runSequence_idle h]; exact SequenceMove.refl s
    · rw [runSequence_succ h]; exact (microStep_end s).sequenceMove.trans (ih _)

end Sys2Proof.Machine
end

