-- ==== Sys2Proof/Laws/Exec.lean ====
section
/-! SUPPORT. What exec answers on an Idle block, one lemma per block operation; and that a block operation
stops while a sequence runs. -/

namespace Sys2Proof.Machine

variable {s : State}

theorem exec_setPixel (h : s.phase = .idle) (x y colour : Int) :
    exec (.setPixel x y colour) s =
      if inBounds x y then
        .next (({ s with fb := s.fb.write (cellAddr x.toNat y.toNat) (maskColour colour) }
          : State).complete .none)
      else .next (s.raise .outOfBounds (.coords x y)) := by
  simp only [exec, execSetPixel, whenIdle_idle _ h]

theorem exec_setImage (h : s.phase = .idle) (image : Image) (q : Rat) :
    exec (.setImage image q) s =
      if !isPanelSized image then .next (s.raise .sizeMismatch .none)
      else if image.wf then
        .next (({ s with fb := Memory.ofCells 0 (imageIndices image q).flatten }
          : State).complete .none)
      else .refused (.illFormed "SET_IMAGE") := by
  simp only [exec, execSetImage, whenIdle_idle _ h]

theorem exec_setBorder (h : s.phase = .idle) (colour : Int) :
    exec (.setBorder colour) s =
      .next ((if isNamedColour colour then { s with border := maskColour colour } else s).complete
        .none) := by
  simp only [exec, execSetBorder, whenIdle_idle _ h]

theorem exec_setHflip (h : s.phase = .idle) (b : Bool) :
    exec (.setHflip b) s = .next (({ s with hflip := b } : State).complete .none) := by
  simp only [exec, execSetHflip, whenIdle_idle _ h]

theorem exec_setVflip (h : s.phase = .idle) (b : Bool) :
    exec (.setVflip b) s = .next (({ s with vflip := b } : State).complete .none) := by
  simp only [exec, execSetVflip, whenIdle_idle _ h]

theorem exec_setRotation (h : s.phase = .idle) (deg : Int) :
    exec (.setRotation deg) s =
      if deg % 90 = 0 then .next (({ s with rotation := deg } : State).complete .none)
      else .next (s.raise .invalidArgument (.degrees deg)) := by
  simp only [exec, execSetRotation, whenIdle_idle _ h]

theorem exec_blend (h : s.phase = .idle) (q : Rat) :
    exec (.blend q) s = .next (s.complete (.flat (flatten (blendPalette q)))) := by
  simp only [exec, execBlend, whenIdle_idle _ h]

theorem exec_blend24 (h : s.phase = .idle) (q : Rat) :
    exec (.blend24 q) s =
      if allBytes (blendPalette q) then
        .next (s.complete (.packed ((blendPalette q).map packTriple)))
      else .refused .channelOutOfRange := by
  simp only [exec, execBlend24, whenIdle_idle _ h]

theorem exec_quantize (h : s.phase = .idle) (image : Bitmap Rgb) (pal : List Triple) :
    exec (.quantize image pal) s =
      if image.wf && image.isPanelSize && decide (pal.length = 8) then
        .next (s.complete (.indexed ⟨image.width, image.height, quantizeRows pal image.rows⟩))
      else .refused (.illFormed "QUANTIZE") := by
  simp only [exec, execQuantize, whenIdle_idle _ h]

theorem exec_render (h : s.phase = .idle) (border : Colour) (hf vf : Bool) (rot : Int) :
    exec (.render border hf vf rot) s =
      if rot % 90 = 0 then
        .next (s.complete (.indices (renderSequence s.fb hf vf (quarterTurns rot))))
      else .refused (.illFormed "RENDER") := by
  simp only [exec, execRender, whenIdle_idle _ h]

theorem exec_pack (h : s.phase = .idle) (v : List Colour) :
    exec (.pack v) s =
      if v.length % 2 = 0 then .next (s.complete (.bytes (packIndices v)))
      else .next (s.raise .invalidArgument (.oddSequence v)) := by
  simp only [exec, execPack, whenIdle_idle _ h]

theorem exec_write (h : s.phase = .idle) (isData : Bool) (bytes : List Byte) :
    exec (.write isData bytes) s = .next (settle (s.logicalWrite isData bytes)) := by
  simp only [exec, execWrite, whenIdle_idle _ h]

theorem exec_sendCommand (h : s.phase = .idle) (op : Byte) (data : List Byte) :
    exec (.sendCommand op data) s = .next (settle (s.sendCommand op data)) := by
  simp only [exec, execSendCommand, whenIdle_idle _ h]

theorem exec_awaitReady (h : s.phase = .idle) (timeout : Duration) :
    exec (.awaitReady timeout) s = .next (settle (s.awaitReady timeout)) := by
  simp only [exec, execAwaitReady, whenIdle_idle _ h]

theorem exec_setup (h : s.phase = .idle) : exec .setup s = .next (s.sequence false []) := by
  simp only [exec, execSetup, whenIdle_idle _ h]

theorem exec_update (h : s.phase = .idle) (frame : List Byte) :
    exec (.update frame) s =
      if frame.length = frameBytes then .next (s.sequence true frame)
      else .refused (.illFormed "UPDATE") := by
  simp only [exec, execUpdate, whenIdle_idle _ h]

theorem exec_showPanel (h : s.phase = .idle) :
    exec .showPanel s = .next (s.sequence true s.shownFrame) := by
  simp only [exec, execShow, whenIdle_idle _ h]

/-- A wire command's instruction is its shared operation. -/
theorem exec_ofWire (c : WireCommand) (s : State) :
    exec (Instr.ofWire c) s = .next (s.runWire c) := by
  cases c <;> rfl

end Sys2Proof.Machine
end

