-- ==== Sys2Proof/Laws/Memory.lean ====
section
/-! SUPPORT. The laws of the frame buffer: read after write, and that every operation keeps the canonical
form. -/

namespace Sys2Proof.Machine

@[simp] theorem Memory.read_nil (a : Nat) : Memory.read [] a = 0 := rfl

@[simp] theorem Memory.wf_nil : Memory.wf [] = true := rfl

/-- What the canonical form of a non-empty list says. -/
theorem Memory.wfFrom_cons {lo k : Nat} {v : Colour} {m : Memory} :
    Memory.wfFrom lo ((k, v) :: m) = true ↔
      lo ≤ k ∧ k < numPixels ∧ v ≠ 0 ∧ Memory.wfFrom (k + 1) m = true := by
  simp [Memory.wfFrom, and_assoc]

theorem Memory.wfFrom_mono {m : Memory} {lo lo' : Nat} (h : lo' ≤ lo) :
    Memory.wfFrom lo m = true → Memory.wfFrom lo' m = true := by
  cases m with
  | nil => simp [Memory.wfFrom]
  | cons p m =>
    obtain ⟨k, v⟩ := p
    rw [Memory.wfFrom_cons, Memory.wfFrom_cons]
    rintro ⟨h1, h2⟩
    exact ⟨by omega, h2⟩

/-- Below its first address a canonical memory reads BLACK. -/
theorem Memory.read_below {m : Memory} {lo a : Nat} (h : Memory.wfFrom lo m = true) (ha : a < lo) :
    Memory.read m a = 0 := by
  cases m with
  | nil => rfl
  | cons p m =>
    obtain ⟨k, v⟩ := p
    rw [Memory.wfFrom_cons] at h
    have : a < k := by omega
    simp [Memory.read, this]

/-- Outside the buffer a canonical memory reads BLACK. -/
theorem Memory.read_outside {m : Memory} {lo a : Nat} (h : Memory.wfFrom lo m = true)
    (ha : numPixels ≤ a) : Memory.read m a = 0 := by
  induction m generalizing lo with
  | nil => rfl
  | cons p m ih =>
    obtain ⟨k, v⟩ := p
    rw [Memory.wfFrom_cons] at h
    have h1 : ¬ a < k := by omega
    have h2 : a ≠ k := by omega
    simp [Memory.read, h1, h2, ih h.2.2.2]

/-! ### Reading the first cell of a list -/

theorem Memory.read_cons_lt {k a : Nat} {v : Colour} {m : Memory} (h : a < k) :
    Memory.read ((k, v) :: m) a = 0 := by
  simp only [Memory.read, if_pos h]

@[simp] theorem Memory.read_cons_self {k : Nat} {v : Colour} {m : Memory} :
    Memory.read ((k, v) :: m) k = v := by
  simp only [Memory.read, lt_irrefl, if_false, if_true]

theorem Memory.read_cons_gt {k a : Nat} {v : Colour} {m : Memory} (h : k < a) :
    Memory.read ((k, v) :: m) a = Memory.read m a := by
  have h1 : ¬ a < k := by omega
  have h2 : ¬ a = k := by omega
  simp only [Memory.read, if_neg h1, if_neg h2]

/-! ### Writing -/

theorem Memory.write_wfFrom {m : Memory} {lo a : Nat} {v : Colour} (h : Memory.wfFrom lo m = true)
    (hlo : lo ≤ a) (ha : a < numPixels) : Memory.wfFrom lo (Memory.write m a v) = true := by
  induction m generalizing lo with
  | nil =>
    unfold Memory.write
    split_ifs with hv
    · exact h
    · exact Memory.wfFrom_cons.mpr ⟨hlo, ha, hv, rfl⟩
  | cons p m ih =>
    obtain ⟨k, w⟩ := p
    have hc := Memory.wfFrom_cons.mp h
    unfold Memory.write
    split_ifs with h1 h2 h3 h4
    · exact h
    · exact Memory.wfFrom_cons.mpr ⟨hlo, ha, h2, Memory.wfFrom_cons.mpr ⟨by omega, hc.2⟩⟩
    · exact Memory.wfFrom_mono (by omega) hc.2.2.2
    · exact Memory.wfFrom_cons.mpr ⟨hlo, ha, h4, by rw [h3]; exact hc.2.2.2⟩
    · exact Memory.wfFrom_cons.mpr ⟨hc.1, hc.2.1, hc.2.2.1, ih hc.2.2.2 (by omega)⟩

/-- A write inside the buffer keeps the canonical form. -/
theorem Memory.write_wf {m : Memory} {a : Nat} {v : Colour} (h : m.wf = true) (ha : a < numPixels) :
    (m.write a v).wf = true :=
  Memory.write_wfFrom h (Nat.zero_le a) ha

theorem Memory.read_write_self {m : Memory} {lo a : Nat} {v : Colour}
    (h : Memory.wfFrom lo m = true) : Memory.read (Memory.write m a v) a = v := by
  induction m generalizing lo with
  | nil =>
    unfold Memory.write
    split_ifs with hv
    · rw [hv]; rfl
    · exact Memory.read_cons_self
  | cons p m ih =>
    obtain ⟨k, w⟩ := p
    have hc := Memory.wfFrom_cons.mp h
    unfold Memory.write
    split_ifs with h1 h2 h3 h4
    · rw [h2]; exact Memory.read_cons_lt h1
    · exact Memory.read_cons_self
    · rw [h4]; exact Memory.read_below hc.2.2.2 (by omega)
    · exact Memory.read_cons_self
    · rw [Memory.read_cons_gt (by omega)]; exact ih hc.2.2.2

theorem Memory.read_write_other {m : Memory} {lo a b : Nat} {v : Colour}
    (h : Memory.wfFrom lo m = true) (hab : b ≠ a) :
    Memory.read (Memory.write m a v) b = Memory.read m b := by
  induction m generalizing lo with
  | nil =>
    unfold Memory.write
    split_ifs with hv
    · rfl
    · rcases Nat.lt_or_gt_of_ne hab with hb | hb
      · rw [Memory.read_cons_lt hb]; rfl
      · rw [Memory.read_cons_gt hb]
  | cons p m ih =>
    obtain ⟨k, w⟩ := p
    have hc := Memory.wfFrom_cons.mp h
    unfold Memory.write
    split_ifs with h1 h2 h3 h4
    · rfl
    · rcases Nat.lt_or_gt_of_ne hab with hb | hb
      · rw [Memory.read_cons_lt hb, Memory.read_cons_lt (by omega)]
      · rw [Memory.read_cons_gt hb]
    · rcases Nat.lt_or_gt_of_ne hab with hb | hb
      · rw [Memory.read_cons_lt (by omega), Memory.read_below hc.2.2.2 (by omega)]
      · rw [Memory.read_cons_gt (by omega)]
    · rcases Nat.lt_or_gt_of_ne hab with hb | hb
      · rw [Memory.read_cons_lt hb, Memory.read_cons_lt (by omega)]
      · rw [Memory.read_cons_gt hb, Memory.read_cons_gt (by omega)]
    · rcases lt_trichotomy b k with hb | hb | hb
      · rw [Memory.read_cons_lt hb, Memory.read_cons_lt hb]
      · subst hb
        rw [Memory.read_cons_self, Memory.read_cons_self]
      · rw [Memory.read_cons_gt hb, Memory.read_cons_gt hb, ih hc.2.2.2]

/-! ### Replacing the whole buffer -/

theorem Memory.ofCells_wfFrom {cells : List Colour} {lo a : Nat} (hlo : lo ≤ a)
    (h : a + cells.length ≤ numPixels) : Memory.wfFrom lo (Memory.ofCells a cells) = true := by
  induction cells generalizing lo a with
  | nil => rfl
  | cons c cs ih =>
    have hlen : a + 1 + cs.length ≤ numPixels := by simp only [List.length_cons] at h; omega
    unfold Memory.ofCells
    split_ifs with hc
    · exact ih (by omega) hlen
    · exact Memory.wfFrom_cons.mpr ⟨hlo, by omega, hc, ih (le_refl _) hlen⟩

/-- A memory of at most `NPIX` cells is canonical. -/
theorem Memory.ofCells_wf {cells : List Colour} (h : cells.length ≤ numPixels) :
    (Memory.ofCells 0 cells).wf = true :=
  Memory.ofCells_wfFrom (le_refl 0) (by omega)

theorem Memory.read_ofCells_below {cells : List Colour} {a b : Nat} (hb : b < a) :
    Memory.read (Memory.ofCells a cells) b = 0 := by
  induction cells generalizing a with
  | nil => rfl
  | cons c cs ih =>
    unfold Memory.ofCells
    split_ifs with hc
    · exact ih (by omega)
    · exact Memory.read_cons_lt hb

theorem Memory.read_ofCells_from {cells : List Colour} {a n : Nat} :
    Memory.read (Memory.ofCells a cells) (a + n) = cells.getD n 0 := by
  induction cells generalizing a n with
  | nil => rfl
  | cons c cs ih =>
    unfold Memory.ofCells
    cases n with
    | zero =>
      split_ifs with hc
      · rw [hc]; exact Memory.read_ofCells_below (by omega)
      · exact Memory.read_cons_self
    | succ n =>
      have he : a + (n + 1) = a + 1 + n := by omega
      split_ifs with hc
      · rw [he, ih]; rfl
      · rw [Memory.read_cons_gt (by omega), he, ih]; rfl

/-- Cell `n` of a replaced buffer is element `n` of the list it was made from. -/
theorem Memory.read_ofCells {cells : List Colour} (n : Nat) :
    Memory.read (Memory.ofCells 0 cells) n = cells.getD n 0 := by
  have := @Memory.read_ofCells_from cells 0 n
  rwa [Nat.zero_add] at this

/-- A coordinate inside the buffer names a cell of the buffer. -/
theorem cellAddr_lt {x y : Nat} (hx : x < 600) (hy : y < 448) : cellAddr x y < numPixels := by
  unfold cellAddr panelWidth numPixels
  omega

end Sys2Proof.Machine
end

