-- ==== Sys2Proof/Laws/Operands.lean ====
section
/-! SUPPORT. The operand forms, as facts about integers. -/

namespace Sys2Proof.Machine

theorem inBounds_iff {x y : Int} :
    inBounds x y = true ↔ 0 ≤ x ∧ x < 600 ∧ 0 ≤ y ∧ y < 448 := by
  have hw : (panelWidth : Int) = 600 := rfl
  have hh : (panelHeight : Int) = 448 := rfl
  simp only [inBounds, Bool.and_eq_true, decide_eq_true_eq]
  omega

theorem isNamedColour_iff {n : Int} : isNamedColour n = true ↔ 0 ≤ n ∧ n ≤ 7 := by
  simp [isNamedColour]

/-- Masking a colour takes it modulo 8, for any size and sign. -/
theorem maskColour_toNat (n : Int) : ((maskColour n).toNat : Int) = n % 8 := by
  simp only [maskColour, BitVec.toNat_ofInt]
  omega

theorem quarterTurns_lt (rot : Int) : quarterTurns rot < 4 := by
  unfold quarterTurns
  omega

end Sys2Proof.Machine
end

