-- ==== Sys2Proof/Laws/PerInstr.lean ====
section
/-! SUPPORT. Per instruction: its encoding carries the number the spec's tables give it, in the format the
tables give it (30_encoding.md R93, R107). -/

namespace Sys2Proof.Laws.Selector

/-- The number an encoding carries, with `true` for format HOSTOP and `false` for format WIRE. -/
def numberOf : Encoded → Bool × Nat
  | .request r => (true, r.opsel.toNat)
  | .wire op => (false, op.toNat)

/-- The selector table of R107 and the opcode table of R93, written out. -/
def tableNumber : Instr → Bool × Nat
  | .setPixel _ _ _ => (true, 1)
  | .setImage _ _ => (true, 2)
  | .setBorder _ => (true, 3)
  | .showPanel => (true, 4)
  | .setup => (true, 5)
  | .setHflip _ => (true, 6)
  | .setVflip _ => (true, 7)
  | .setRotation _ => (true, 8)
  | .blend _ => (true, 16)
  | .blend24 _ => (true, 17)
  | .quantize _ _ => (true, 18)
  | .render _ _ _ _ => (true, 19)
  | .pack _ => (true, 20)
  | .update _ => (true, 21)
  | .sendCommand _ _ => (true, 22)
  | .awaitReady _ => (true, 23)
  | .write _ _ => (true, 24)
  | .tres => (false, 97)
  | .psr => (false, 0)
  | .pwr => (false, 1)
  | .pll => (false, 48)
  | .tse => (false, 65)
  | .cdi => (false, 80)
  | .tcon => (false, 96)
  | .dam => (false, 101)
  | .pws => (false, 227)
  | .pfs => (false, 3)
  | .dtm1 => (false, 16)
  | .pon => (false, 4)
  | .drf => (false, 18)
  | .pof => (false, 2)

/-- The encoding of the instruction carries its number of the table. -/
def Statement (i : Instr) : Prop := numberOf (encode i) = tableNumber i

theorem setPixel (x y colour : Int) : Statement (.setPixel x y colour) := rfl
theorem setImage (image : Image) (s : Rat) : Statement (.setImage image s) := rfl
theorem setBorder (colour : Int) : Statement (.setBorder colour) := rfl
theorem showPanel : Statement .showPanel := rfl
theorem setup : Statement .setup := rfl
theorem setHflip (b : Bool) : Statement (.setHflip b) := rfl
theorem setVflip (b : Bool) : Statement (.setVflip b) := rfl
theorem setRotation (deg : Int) : Statement (.setRotation deg) := rfl
theorem blend (s : Rat) : Statement (.blend s) := rfl
theorem blend24 (s : Rat) : Statement (.blend24 s) := rfl
theorem quantize (image : Bitmap Rgb) (pal : List Triple) : Statement (.quantize image pal) := rfl
theorem render (border : Colour) (hf vf : Bool) (rot : Int) : Statement (.render border hf vf rot) := rfl
theorem pack (v : List Colour) : Statement (.pack v) := rfl
theorem update (frame : List Byte) : Statement (.update frame) := rfl
theorem sendCommand (op : Byte) (data : List Byte) : Statement (.sendCommand op data) := rfl
theorem awaitReady (timeout : Duration) : Statement (.awaitReady timeout) := rfl
theorem write (isData : Bool) (bytes : List Byte) : Statement (.write isData bytes) := rfl
theorem tres : Statement .tres := rfl
theorem psr : Statement .psr := rfl
theorem pwr : Statement .pwr := rfl
theorem pll : Statement .pll := rfl
theorem tse : Statement .tse := rfl
theorem cdi : Statement .cdi := rfl
theorem tcon : Statement .tcon := rfl
theorem dam : Statement .dam := rfl
theorem pws : Statement .pws := rfl
theorem pfs : Statement .pfs := rfl
theorem dtm1 : Statement .dtm1 := rfl
theorem pon : Statement .pon := rfl
theorem drf : Statement .drf := rfl
theorem pof : Statement .pof := rfl

end Sys2Proof.Laws.Selector
end

