-- ==== Sys2Proof/Laws/Step.lean ====
section
/-! SUPPORT. What one instruction and one step can do, said once: the inversion lemmas every invariant
rests on. -/

namespace Sys2Proof.Machine

/-! ## One instruction -/

/-- An instruction that is no block operation is a wire command's. -/
theorem exists_ofWire {i : Instr} (h : isBlockOperation i = false) : ∃ c, i = Instr.ofWire c := by
  cases i with
  | tres => exact ⟨.tres, rfl⟩
  | psr => exact ⟨.psr, rfl⟩
  | pwr => exact ⟨.pwr, rfl⟩
  | pll => exact ⟨.pll, rfl⟩
  | tse => exact ⟨.tse, rfl⟩
  | cdi => exact ⟨.cdi, rfl⟩
  | tcon => exact ⟨.tcon, rfl⟩
  | dam => exact ⟨.dam, rfl⟩
  | pws => exact ⟨.pws, rfl⟩
  | pfs => exact ⟨.pfs, rfl⟩
  | dtm1 => exact ⟨.dtm1, rfl⟩
  | pon => exact ⟨.pon, rfl⟩
  | drf => exact ⟨.drf, rfl⟩
  | pof => exact ⟨.pof, rfl⟩
  | _ => simp [isBlockOperation] at h

/-- A block operation that answers a next state was executed on an Idle block. -/
theorem idle_of_exec_next {i : Instr} {s t : State} (hb : isBlockOperation i = true)
    (h : exec i s = .next t) : s.phase = .idle := by
  cases i <;> first
    | (simp only [exec, execSetPixel, execSetImage, execSetBorder, execShow, execSetup, execSetHflip,
        execSetVflip, execSetRotation, execBlend, execBlend24, execQuantize, execRender, execPack,
        execUpdate, execSendCommand, execAwaitReady, execWrite] at h
       exact (whenIdle_next h).1)
    | simp [isBlockOperation] at hb

theorem complete_sequenceMove (v : Reply) (s : State) : SequenceMove s (s.complete v) :=
  ⟨rfl, rfl, rfl, rfl, rfl, rfl, ⟨[], (List.append_nil _).symm⟩, id⟩

theorem settle_sequenceMove {r : Ended} {s : State} (h : BusMove s r.1) : SequenceMove s (settle r) := by
  unfold settle
  split_ifs
  · exact h.sequenceMove.trans (complete_sequenceMove _ _)
  · exact h.sequenceMove.trans (raise_sequenceMove _ _ _)

theorem runWire_sequenceMove (c : WireCommand) (s : State) : SequenceMove s (s.runWire c) := by
  unfold State.runWire
  split_ifs
  · exact settle_sequenceMove (sendWire_busMove c s)
  · exact (settleMicro_sendWire c s).sequenceMove

theorem sequence_sequenceMove (u : Bool) (f : List Byte) (s : State) :
    SequenceMove s (s.sequence u f) :=
  (start_sequenceMove u f s).trans (runSequence_sequenceMove _ _)

/-- What an instruction that may touch the pins leaves alone: memory, the configuration registers, the
requests. -/
theorem exec_sequenceMove {i : Instr} {s t : State} (h : touchesPins i = true)
    (he : exec i s = .next t) : SequenceMove s t := by
  by_cases hb : isBlockOperation i = true
  · have hi := idle_of_exec_next hb he
    cases i with
    | showPanel => rw [exec_showPanel hi] at he; obtain rfl := Host.Outcome.next.inj he; exact sequence_sequenceMove _ _ _
    | setup => rw [exec_setup hi] at he; obtain rfl := Host.Outcome.next.inj he; exact sequence_sequenceMove _ _ _
    | update f =>
      rw [exec_update hi] at he
      split_ifs at he
      obtain rfl := Host.Outcome.next.inj he
      exact sequence_sequenceMove _ _ _
    | sendCommand op data =>
      rw [exec_sendCommand hi] at he; obtain rfl := Host.Outcome.next.inj he
      exact settle_sequenceMove (sendCommand_busMove _ _ _)
    | awaitReady timeout =>
      rw [exec_awaitReady hi] at he; obtain rfl := Host.Outcome.next.inj he
      exact settle_sequenceMove (awaitReady_busMove _ _)
    | write d bytes =>
      rw [exec_write hi] at he; obtain rfl := Host.Outcome.next.inj he
      exact settle_sequenceMove (logicalWrite_busMove _ _ _)
    | setPixel | setImage | setBorder | setHflip | setVflip | setRotation | blend | blend24
    | quantize | render | pack => simp [touchesPins] at h
    | _ => simp [isBlockOperation] at hb
  · obtain ⟨c, rfl⟩ := exists_ofWire (by simpa using hb)
    rw [exec_ofWire] at he
    obtain rfl := Host.Outcome.next.inj he
    exact runWire_sequenceMove c s

/-- An image of the panel's size has at most `NPIX` pixels. -/
theorem imageIndices_length {image : Image} {q : Rat} (h1 : isPanelSized image = true)
    (h2 : image.wf = true) : (imageIndices image q).flatten.length = numPixels := by
  have key : ∀ {α : Type} (b : Bitmap α) (f : α → Colour), b.isPanelSize = true → b.wf = true →
      ((b.rows.map fun row => row.map f).flatten).length = numPixels := by
    intro α b f hs hw
    simp only [Bitmap.isPanelSize, Bool.and_eq_true, decide_eq_true_eq] at hs
    simp only [Bitmap.wf, Bool.and_eq_true, decide_eq_true_eq, List.all_eq_true] at hw
    have hall : ∀ rows : List (List α), (∀ r ∈ rows, r.length = b.width) →
        ((rows.map fun row => row.map f).flatten).length = rows.length * b.width := by
      intro rows
      induction rows with
      | nil => simp
      | cons r rs ih =>
        intro hr
        simp only [List.map_cons, List.flatten_cons, List.length_append, List.length_map,
          List.length_cons]
        rw [ih fun r' h' => hr r' (List.mem_cons_of_mem _ h'), hr r List.mem_cons_self]
        ring
    rw [hall b.rows hw.2, hw.1, hs.1, hs.2]
    rfl
  cases image with
  | rgb b => exact key b _ h1 h2
  | indexed b => exact key b _ h1 h2

/-- How an instruction that touches no pin ends: it completes with a value, over a state in which at most
the buffer or one orientation register was written by its one writer, or it takes an error over the
unchanged state. -/
inductive PureEnd (i : Instr) (s : State) : State → Prop where
  | cells (m : Memory) (hw : s.fb.wf = true → m.wf = true)
      (hi : (∃ x y c, i = .setPixel x y c) ∨ (∃ im q, i = .setImage im q)) :
      PureEnd i s (({ s with fb := m } : State).complete .none)
  | border (c : Colour) (hi : ∃ n, i = .setBorder n) :
      PureEnd i s (({ s with border := c } : State).complete .none)
  | hflip (b : Bool) (hi : i = .setHflip b) :
      PureEnd i s (({ s with hflip := b } : State).complete .none)
  | vflip (b : Bool) (hi : i = .setVflip b) :
      PureEnd i s (({ s with vflip := b } : State).complete .none)
  | rotation (d : Int) (hd : d % 90 = 0) (hi : i = .setRotation d) :
      PureEnd i s (({ s with rotation := d } : State).complete .none)
  | value (v : Reply) : PureEnd i s (s.complete v)
  | error (code : ResultCode) (info : Reply) : PureEnd i s (s.raise code info)

/-- An instruction that touches no pin was executed on an Idle block and ends in one of those ways. -/
theorem exec_pureEnd {i : Instr} {s t : State} (h : touchesPins i = false)
    (he : exec i s = .next t) : s.phase = .idle ∧ PureEnd i s t := by
  have hb : isBlockOperation i = true := by
    cases i <;> first | rfl | simp [touchesPins] at h
  have hi := idle_of_exec_next hb he
  refine ⟨hi, ?_⟩
  cases i with
  | setPixel x y c =>
    rw [exec_setPixel hi] at he
    split_ifs at he with hin
    · obtain rfl := Host.Outcome.next.inj he
      refine .cells _ (fun hw => Memory.write_wf hw ?_) (.inl ⟨_, _, _, rfl⟩)
      have hb := inBounds_iff.mp hin
      exact cellAddr_lt (by omega) (by omega)
    · obtain rfl := Host.Outcome.next.inj he
      exact .error _ _
  | setImage im q =>
    rw [exec_setImage hi] at he
    split_ifs at he with h1 h2
    · obtain rfl := Host.Outcome.next.inj he
      exact .error _ _
    · obtain rfl := Host.Outcome.next.inj he
      refine .cells _ (fun _ => Memory.ofCells_wf (le_of_eq (imageIndices_length ?_ h2)))
        (.inr ⟨_, _, rfl⟩)
      simpa using h1
  | setBorder n =>
    rw [exec_setBorder hi] at he
    split_ifs at he
    · obtain rfl := Host.Outcome.next.inj he
      exact .border _ ⟨_, rfl⟩
    · obtain rfl := Host.Outcome.next.inj he
      exact .value _
  | setHflip b => rw [exec_setHflip hi] at he; obtain rfl := Host.Outcome.next.inj he; exact .hflip _ rfl
  | setVflip b => rw [exec_setVflip hi] at he; obtain rfl := Host.Outcome.next.inj he; exact .vflip _ rfl
  | setRotation d =>
    rw [exec_setRotation hi] at he
    split_ifs at he with hd
    · obtain rfl := Host.Outcome.next.inj he
      exact .rotation _ hd rfl
    · obtain rfl := Host.Outcome.next.inj he
      exact .error _ _
  | blend q => rw [exec_blend hi] at he; obtain rfl := Host.Outcome.next.inj he; exact .value _
  | blend24 q =>
    rw [exec_blend24 hi] at he
    split_ifs at he
    obtain rfl := Host.Outcome.next.inj he
    exact .value _
  | quantize b p =>
    rw [exec_quantize hi] at he
    split_ifs at he
    obtain rfl := Host.Outcome.next.inj he
    exact .value _
  | render a b c d =>
    rw [exec_render hi] at he
    split_ifs at he
    obtain rfl := Host.Outcome.next.inj he
    exact .value _
  | pack v =>
    rw [exec_pack hi] at he
    split_ifs at he
    · obtain rfl := Host.Outcome.next.inj he
      exact .value _
    · obtain rfl := Host.Outcome.next.inj he
      exact .error _ _
  | showPanel | setup | update | sendCommand | awaitReady | write => simp [touchesPins] at h
  | _ => simp [isBlockOperation] at hb

/-! ## One step -/

@[simp] theorem Caller.mayRequest_host (i : Instr) : Caller.host.mayRequest i = hostCallable i := rfl
@[simp] theorem Caller.mayRequest_bench (i : Instr) : Caller.bench.mayRequest i = true := rfl

/-- What a step of an Idle block does with the first waiting request. -/
theorem step_call {s : State} {q : Call} {rs : List Call} (hp : s.phase = .idle)
    (hr : s.requests = q :: rs) : step s =
      match decode (.request q.request) with
      | .ok i =>
        if q.caller.mayRequest i then exec i { s with requests := rs }
        else .refused (.notHostCallable q.request.opsel)
      | .error e => .refused (.undecodable e) := by
  simp only [step, State.fetch, if_pos hp, hr]
  cases decode (.request q.request) with
  | error e => rfl
  | ok i => dsimp only; split_ifs; exacts [rfl, rfl]

/-- What a request decodes to: a block operation, host-callable when the selector is at most 0x08
(30_encoding.md R107). -/
theorem decodeRequest_kind {r : Request} {i : Instr} (h : decode (.request r) = .ok i) :
    isBlockOperation i = true ∧ hostCallable i = decide (r.opsel.toNat ≤ 8) := by
  simp only [decode, decodeRequest] at h
  split at h
  · exact absurd h (by simp)
  · rename_i f hf
    split at h
    · exact absurd h (by simp)
    · rename_i j hj
      split_ifs at h
      obtain rfl := Except.ok.inj h
      unfold operandDecoder at hf
      generalize r.opsel.toNat = n at hf
      split at hf <;> simp at hf <;> (subst hf; revert hj)
      all_goals
        simp only [decodeSetPixel, decodeSetImage, decodeSetBorder, decodeNoOperand, decodeSetHflip,
          decodeSetVflip, decodeSetRotation, decodeBlend, decodeBlend24, decodeQuantize, decodeRender,
          decodePack, decodeUpdate, decodeSendCommand, decodeAwaitReady, decodeWrite]
        split <;> (try split) <;> simp
        all_goals first
          | (intros; subst_vars; exact ⟨rfl, rfl⟩)
          | (rintro (⟨_, rfl⟩ | ⟨_, rfl⟩) <;> exact ⟨rfl, rfl⟩)

/-- A step of an Idle block leaves it alone when no request waits, and executes the first waiting request
when it decodes and its caller may make it; a step of a running sequence is a micro-step. -/
theorem step_next_cases {s t : State} (h : step s = .next t) :
    (s.phase = .idle ∧ s.requests = [] ∧ t = s) ∨
    (∃ q rs i, s.phase = .idle ∧ s.requests = q :: rs ∧ decode (.request q.request) = .ok i ∧
      q.caller.mayRequest i = true ∧ exec i { s with requests := rs } = .next t) ∨
    (s.phase ≠ .idle ∧ ∃ op, op = microOp s.stepReg ∧ t = s.microAction op) := by
  by_cases hp : s.phase = .idle
  · cases hr : s.requests with
    | nil =>
      left
      have hs : step s = .next s := by simp only [step, State.fetch, if_pos hp, hr]
      rw [hs] at h
      exact ⟨hp, rfl, (Host.Outcome.next.inj h).symm⟩
    | cons q rs =>
      right; left
      rw [step_call hp hr] at h
      cases hd : decode (.request q.request) with
      | error e => simp [hd] at h
      | ok i =>
        simp only [hd] at h
        split_ifs at h with hc
        exact ⟨q, rs, i, hp, rfl, hd, hc, h⟩
  · right; right
    refine ⟨hp, _, rfl, ?_⟩
    simp only [step, State.fetch, if_neg hp] at h
    generalize microOp s.stepReg = op at h
    cases op with
    | send c =>
      simp only at h
      rw [exec_ofWire, runWire_running hp] at h
      exact (Host.Outcome.next.inj h).symm
    | _ => exact (Host.Outcome.next.inj h).symm

end Sys2Proof.Machine
end

