-- ==== Sys2Proof/Laws/Transfers.lean ====
section
/-! SUPPORT. Chunks, and what the transfers, WRITE and SEND_COMMAND append when they succeed and when they fail. -/

namespace Sys2Proof.Machine

theorem numChunks_eq (n : Nat) : numChunks n = (n + 4095) / 4096 := by
  simp [numChunks, config]

theorem chunks_length (bytes : List Byte) : (chunks bytes).length = numChunks bytes.length := by simp [chunks]

/-- Chunk `k` (45_transport.md R240). -/
theorem chunks_get (bytes : List Byte) (k : Nat) (c : List Byte) (h : (chunks bytes)[k]? = some c) :
    k < numChunks bytes.length ∧ c = (bytes.drop (k * 4096)).take 4096 := by
  unfold chunks at h
  rw [List.getElem?_map] at h
  by_cases hk : k < numChunks bytes.length
  · rw [List.getElem?_range hk] at h
    exact ⟨hk, (Option.some.inj h).symm⟩
  · rw [List.getElem?_eq_none (by simpa using hk)] at h; simp at h

/-- The first `n` chunks hold the first `n * 4096` bytes. -/
theorem chunks_flatten_aux (bytes : List Byte) (n : Nat) :
   (((List.range n).map fun k => (bytes.drop (k * 4096)).take 4096)).flatten = bytes.take (n * 4096) := by
  induction n with
  | zero => simp
  | succ n ih =>
    rw [List.range_succ, List.map_append, List.flatten_append, ih]
    simp only [List.map_cons, List.map_nil, List.flatten_cons, List.flatten_nil, List.append_nil]
    rw [Nat.succ_mul, List.take_add]

/-- Transfers of which the first `k` succeed and the next fails (45_transport.md R246). -/
theorem xferAll_fail (cs : List (List Byte)) (s : State) (k : Nat) (c : List Byte) (rest : List Bool)
    (h : s.bus.next = List.replicate k true ++ false :: rest) (hc : cs[k]? = some c) :
    State.xferAll cs s =
      ({ s with bus := ⟨false, rest⟩, trace := s.trace ++ (cs.take k).map .xfer ++ [.xfail c] },
        .transportFailure) := by
  induction k generalizing cs s with
  | zero =>
    cases cs with
    | nil => simp at hc
    | cons a cs =>
      simp at hc; subst hc
      simp only [List.replicate_zero, List.nil_append] at h
      have hl : s.bus.look.1 = false := by simp [Input.look, h]
      unfold State.xferAll
      rw [xfer_fail hl]
      simp [andThen, Input.look, h]
  | succ k ih =>
    cases cs with
    | nil => simp at hc
    | cons a cs =>
      have hl : s.bus.look.1 = true := by simp [Input.look, h, List.replicate_succ]
      unfold State.xferAll
      rw [xfer_ok hl, andThen_ok,
        ih cs { s with bus := s.bus.look.2, trace := s.trace ++ [.xfer a] }
          (by simp [Input.look, h, List.replicate_succ]) (by simpa using hc)]
      simp

/-- A logical write of which the first `k` transfers succeed and the next fails: nothing more is done, and
chip-select stays asserted (45_transport.md R246, R247). -/
theorem logicalWrite_fail (d : Bool) (bytes : List Byte) (s : State) (k : Nat) (c : List Byte)
    (rest : List Bool) (h : s.bus.next = List.replicate k true ++ false :: rest)
    (hc : (chunks bytes)[k]? = some c) :
    s.logicalWrite d bytes =
      ({ s with
        csOut := config.csAsserted
        dcOut := if d then config.dataLevel else config.commandLevel
        bus := ⟨false, rest⟩
        trace := s.trace ++ [.cs config.csAsserted, .dc (if d then config.dataLevel else config.commandLevel)] ++
          ((chunks bytes).take k).map .xfer ++ [.xfail c] }, .transportFailure) := by
  unfold State.logicalWrite
  rw [xferAll_fail (chunks bytes)
    (s.driveCs config.csAsserted |>.driveDc (if d then config.dataLevel else config.commandLevel))
    k c rest h hc, andThen_error _ (by simp)]
  simp [State.driveCs, State.driveDc]

/-- A SEND_COMMAND whose opcode transfer fails (43_protocol_driver.md R194). -/
theorem sendCommand_fail (op : Byte) (data : List Byte) (s : State) (hb : s.bus.look.1 = false) :
    s.sendCommand op data =
      ({ s with
        csOut := config.csAsserted
        dcOut := config.commandLevel
        bus := s.bus.look.2
        trace := s.trace ++ [.cs config.csAsserted, .dc config.commandLevel, .xfail [op]] },
        .transportFailure) := by
  have hw : s.logicalWrite false [op] =
      (s.driveCs config.csAsserted |>.driveDc config.commandLevel).xfer [op] := by
    unfold State.logicalWrite State.xferAll
    simp only [chunks_singleton, Bool.false_eq_true, if_false]
    rw [xfer_fail (by exact hb)]
    rfl
  unfold State.sendCommand
  rw [hw, xfer_fail (by exact hb), andThen_error _ (by simp)]
  simp [State.driveCs, State.driveDc]

/-- A SEND_COMMAND whose opcode write succeeds and whose data write fails at its transfer `k`
(43_protocol_driver.md R194; 45_transport.md R246). -/
theorem sendCommand_dataFail (op : Byte) (data : List Byte) (s : State) (k : Nat) (c : List Byte)
    (rest : List Bool) (h : s.bus.next = List.replicate (k + 1) true ++ false :: rest)
    (hc : (chunks data)[k]? = some c) :
    s.sendCommand op data =
      ({ s with
        csOut := config.csAsserted
        dcOut := config.dataLevel
        bus := ⟨false, rest⟩
        trace := s.trace ++
          [.cs config.csAsserted, .dc config.commandLevel, .xfer [op], .cs config.csDeasserted,
           .cs config.csAsserted, .dc config.dataLevel] ++
          ((chunks data).take k).map .xfer ++ [.xfail c] }, .transportFailure) := by
  have hl : s.bus.look = (true, ⟨true, List.replicate k true ++ false :: rest⟩) := by
    simp [Input.look, h, List.replicate_succ]
  have hd : data ≠ [] := by rintro rfl; simp [chunks_nil] at hc
  have hw : s.logicalWrite false [op] =
      ({ s with
        csOut := config.csDeasserted
        dcOut := config.commandLevel
        bus := ⟨true, List.replicate k true ++ false :: rest⟩
        trace := s.trace ++
          [.cs config.csAsserted, .dc config.commandLevel, .xfer [op], .cs config.csDeasserted] }, .ok) := by
    unfold State.logicalWrite State.xferAll
    simp only [chunks_singleton, Bool.false_eq_true, if_false]
    rw [xfer_ok (by simp [hl]), andThen_ok]
    simp [State.xferAll, andThen, State.driveCs, State.driveDc, hl]
  unfold State.sendCommand
  rw [hw, andThen_ok, if_neg hd, logicalWrite_fail true data _ k c rest rfl hc]
  simp

/-- What transfers that all succeed append to the trace. -/
theorem xferAll_okTrace (cs : List (List Byte)) (s : State) (h : (State.xferAll cs s).2 = .ok) :
    (State.xferAll cs s).1.trace = s.trace ++ cs.map .xfer := by
  induction cs generalizing s with
  | nil => simp [State.xferAll]
  | cons c cs ih =>
    unfold State.xferAll at h ⊢
    cases hl : s.bus.look.1
    · rw [xfer_fail hl] at h; simp [andThen] at h
    · rw [xfer_ok hl, andThen_ok] at h ⊢
      rw [ih _ h]; simp

/-- What a WRITE that ends with OK has appended. -/
theorem write_okTrace (d : Bool) (bytes : List Byte) (s : State) (h : (s.logicalWrite d bytes).2 = .ok) :
    (s.logicalWrite d bytes).1.trace = s.trace ++ writeEvents d bytes := by
  unfold State.logicalWrite at h ⊢
  rcases andThen_cases (State.xferAll (chunks bytes) ((s.driveCs config.csAsserted).driveDc
        (if d then config.dataLevel else config.commandLevel))) (fun s => (s.driveCs config.csDeasserted, .ok)) with ⟨h1, h2⟩ | ⟨h1, h2⟩
  · rw [h2] at h; exact absurd h h1
  · rw [h2]
    show (State.xferAll _ _).1.trace ++ _ = _
    rw [xferAll_okTrace _ _ h1]
    simp [writeEvents]

/-- What a SEND_COMMAND that ends with OK has appended. -/
theorem send_okTrace (op : Byte) (data : List Byte) (s : State) (h : (s.sendCommand op data).2 = .ok) :
    (s.sendCommand op data).1.trace = s.trace ++ commandEvents op data := by
  unfold State.sendCommand at h ⊢
  rcases andThen_cases (s.logicalWrite false [op]) (fun s => if data = [] then (s, .ok) else s.logicalWrite true data) with ⟨h1, h2⟩ | ⟨h1, h2⟩
  · rw [h2] at h; exact absurd h h1
  · rw [h2] at h ⊢
    by_cases hd : data = []
    · simp only [hd, if_true]
      rw [write_okTrace _ _ _ h1]; simp [commandEvents]
    · simp only [if_neg hd] at h ⊢
      rw [write_okTrace _ _ _ h, write_okTrace _ _ _ h1]; simp [commandEvents, hd]

/-! ## The levels after an event sequence -/

theorem resetLevel_xfers (l : List (List Byte)) (a : Bool) : resetLevel a (l.map .xfer) = a := by
  induction l with | nil => rfl | cons x l ih => exact ih

theorem dcLevel_xfers (l : List (List Byte)) (a : Bool) : dcLevel a (l.map .xfer) = a := by
  induction l with | nil => rfl | cons x l ih => exact ih

theorem resetLevel_command (op : Byte) (data : List Byte) (a : Bool) : resetLevel a (commandEvents op data) = a := by
  by_cases hd : data = [] <;> simp [commandEvents, writeEvents, hd, resetLevel_xfers, resetLevel]

theorem dcLevel_command (op : Byte) (data : List Byte) (a : Bool) : dcLevel a (commandEvents op data) = commandDc data := by
  by_cases hd : data = [] <;> simp [commandEvents, writeEvents, hd, dcLevel_xfers, dcLevel, commandDc]

theorem csLevel_command (op : Byte) (data : List Byte) (a : Bool) : csLevel a (commandEvents op data) = config.csDeasserted := by
  by_cases hd : data = [] <;> simp [commandEvents, writeEvents, hd, csLevel]

end Sys2Proof.Machine
end

