-- ==== Sys2Proof/Laws/Values.lean ====
section
/-! SUPPORT. What the pure functions of the Palette Engine, RENDER and PACK give. -/

namespace Sys2Proof.Machine

/-! ## Truncation and blending -/

/-- Truncating an integer gives it back. -/
theorem truncRat_int (n : Int) : truncRat (n : Rat) = n := by
  simp [truncRat]

theorem truncRat_nat (n : Nat) : truncRat (n : Rat) = n := by
  simp [truncRat]

/-- A value in 0..255 truncates into 0..255. -/
theorem truncRat_bounds (q : Rat) (h0 : 0 ≤ q) (h1 : q ≤ 255) : 0 ≤ truncRat q ∧ truncRat q ≤ 255 := by
  have hn : 0 ≤ q.num := Rat.num_nonneg.mpr h0
  have e : truncRat q = q.num / q.den := by
    unfold truncRat; exact Int.tdiv_eq_ediv_of_nonneg hn
  have e2 : truncRat q = ⌊q⌋ := by rw [e]; exact (Rat.floor_def q).symm
  rw [e2]
  constructor
  · exact Int.floor_nonneg.mpr h0
  · have : ((⌊q⌋ : Int) : Rat) ≤ 255 := (Int.floor_le q).trans h1
    exact_mod_cast this

/-- For a saturation in [0, 1] a blended channel lies in 0..255 (40_palette.md R132). -/
theorem channel_byte (a b : Byte) (q : Rat) (h0 : 0 ≤ q) (h1 : q ≤ 1) : isByte (blendChannel a b q) = true := by
  have ha : (a.toNat : Rat) ≤ 255 := by have := a.isLt; exact_mod_cast (show a.toNat ≤ 255 by omega)
  have hb : (b.toNat : Rat) ≤ 255 := by have := b.isLt; exact_mod_cast (show b.toNat ≤ 255 by omega)
  have ha0 : (0:Rat) ≤ a.toNat := by positivity
  have hb0 : (0:Rat) ≤ b.toNat := by positivity
  have := truncRat_bounds ((a.toNat : Rat) * q + b.toNat * (1 - q)) (by nlinarith) (by nlinarith)
  simp [isByte, blendChannel, this]

theorem blendTables_length (a b : Vector Rgb 7) (q : Rat) : (blendTables a b q).length = 8 := by
  simp [blendTables]

/-- Entry `i` of a blend, for the seven colours of the tables. -/
theorem blend_get (sat desat : Vector Rgb 7) (q : Rat) (i : Fin 7) : (blendTables sat desat q)[i.val]? = some (blendEntry sat[i] desat[i] q) := by
  unfold blendTables
  rw [List.getElem?_append_left (by simp)]
  simp

theorem flatten_length (l : List Triple) : (flatten l).length = 3 * l.length := by
  induction l with
  | nil => rfl
  | cons t ts ih => simp [flatten, ih]; omega

/-- The three numbers of entry `i` in the flat form (30_encoding.md R100). -/
theorem flatten_get (l : List Triple) (i : Nat) (t : Triple) (h : l[i]? = some t) :
    (flatten l)[3*i]? = some t.r ∧ (flatten l)[3*i+1]? = some t.g ∧ (flatten l)[3*i+2]? = some t.b := by
  induction l generalizing i with
  | nil => simp at h
  | cons a l ih =>
    cases i with
    | zero => simp at h; subst h; simp [flatten]
    | succ i =>
      have := ih i (by simpa using h)
      have e : 3 * (i+1) = 3 * i + 1 + 1 + 1 := by ring
      simp only [flatten, e]
      simpa using this

theorem flatten_append (a b : List Triple) : flatten (a ++ b) = flatten a ++ flatten b := by
  induction a with
  | nil => rfl
  | cons t ts ih => simp [flatten, ih]

/-- A packed colour of three bytes (30_encoding.md R100). -/
theorem packTriple_toNat (t : Triple) (h : (isByte t.r && isByte t.g && isByte t.b) = true) : ((packTriple t).toNat : Int) = t.r * 65536 + t.g * 256 + t.b := by
  simp only [isByte, Bool.and_eq_true, decide_eq_true_eq] at h
  obtain ⟨r, g, b⟩ := t
  obtain ⟨⟨⟨r0, r1⟩, ⟨g0, g1⟩⟩, ⟨b0, b1⟩⟩ := h
  dsimp at *
  lift r to Nat using r0
  lift g to Nat using g0
  lift b to Nat using b0
  unfold packTriple
  simp only [BitVec.toNat_or, BitVec.toNat_shiftLeft, BitVec.ofInt_natCast, BitVec.toNat_ofNat]
  have hr : r < 256 := by omega
  have hg : g < 256 := by omega
  have hb : b < 256 := by omega
  have e1 : (r % 2^24) <<< 16 % 2^24 = r <<< 16 := by
    rw [Nat.shiftLeft_eq, Nat.shiftLeft_eq]; omega
  have e2 : (g % 2^24) <<< 8 % 2^24 = g <<< 8 := by
    rw [Nat.shiftLeft_eq, Nat.shiftLeft_eq]; omega
  rw [e1, e2, Nat.mod_eq_of_lt (by omega : b < 2^24)]
  have f1 : r <<< 16 ||| g <<< 8 = (r * 256 + g) <<< 8 := by
    have : r <<< 16 = (r <<< 8) <<< 8 := by simp [Nat.shiftLeft_eq]; ring
    rw [this, ← Nat.shiftLeft_or_distrib, ← Nat.shiftLeft_add_eq_or_of_lt (by simpa using hg), Nat.shiftLeft_eq r]
  rw [f1, ← Nat.shiftLeft_add_eq_or_of_lt (by simpa using hb), Nat.shiftLeft_eq]
  push_cast; ring

/-! ## Quantising -/

/-- The scan of QUANTIZE keeps the lowest index of least distance (40_palette.md R135). -/
theorem nearestFrom_spec (c : Rgb) (pre ps : List Triple) (best : Nat) (bt : Triple)
    (hb : pre[best]? = some bt) (hle : ∀ e ∈ pre, dist bt c ≤ dist e c)
    (hlt : ∀ (k : Nat) e, k < best → pre[k]? = some e → dist bt c < dist e c) :
    ∃ t, (pre ++ ps)[nearestFrom c ps pre.length best (dist bt c)]? = some t ∧
      nearestFrom c ps pre.length best (dist bt c) < (pre ++ ps).length ∧
      (∀ e ∈ pre ++ ps, dist t c ≤ dist e c) ∧
      ∀ (k : Nat) e, k < nearestFrom c ps pre.length best (dist bt c) → (pre ++ ps)[k]? = some e → dist t c < dist e c := by
  induction ps generalizing pre best bt with
  | nil =>
    simp only [nearestFrom, List.append_nil]
    refine ⟨bt, hb, (List.getElem?_eq_some_iff.mp hb).1, hle, hlt⟩
  | cons p ps ih =>
    have hb1 := (List.getElem?_eq_some_iff.mp hb).1
    have e : pre ++ p :: ps = (pre ++ [p]) ++ ps := by simp
    have el : (pre ++ [p]).length = pre.length + 1 := by simp
    simp only [nearestFrom]
    split_ifs with hd
    · have := ih (pre ++ [p]) pre.length p (by simp) (by
        intro x hx
        rcases List.mem_append.mp hx with hx | hx
        · exact (hd.le).trans (hle x hx)
        · simp at hx; subst hx; exact le_refl _) (by
        intro k x hk hx
        rw [List.getElem?_append_left hk] at hx
        exact hd.trans_le (hle x (List.mem_of_getElem? hx)))
      rw [el] at this; rw [e]; exact this
    · have := ih (pre ++ [p]) best bt (by rw [List.getElem?_append_left hb1]; exact hb) (by
        intro x hx
        rcases List.mem_append.mp hx with hx | hx
        · exact hle x hx
        · simp at hx; subst hx; omega) (by
        intro k x hk hx
        rw [List.getElem?_append_left (by omega)] at hx
        exact hlt k x hk hx)
      rw [el] at this; rw [e]; exact this

/-- The nearest entry of a palette of eight. -/
theorem nearest_spec (pal : List Triple) (c : Rgb) (hl : pal.length = 8) :
    ∃ best, pal[(nearest pal c).toNat]? = some best ∧ (∀ e ∈ pal, dist best c ≤ dist e c) ∧
      ∀ (k : Nat) (e : Triple), k < (nearest pal c).toNat → pal[k]? = some e → dist best c < dist e c := by
  cases pal with
  | nil => simp at hl
  | cons p ps =>
    obtain ⟨t, h1, h2, h3, h4⟩ := nearestFrom_spec c [p] ps 0 p rfl (by simp) (by simp)
    have hn : (nearest (p :: ps) c).toNat = nearestFrom c ps 1 0 (dist p c) := by
      simp only [nearest, BitVec.toNat_ofNat]
      exact Nat.mod_eq_of_lt (by rw [show [p] ++ ps = p :: ps from rfl, hl] at h2; exact h2)
    rw [hn]
    exact ⟨t, h1, h3, h4⟩

/-- A bitmap of the panel's size has a pixel at every coordinate, and mapping it and flattening it puts the
mapped pixel at the address of the cell. -/
theorem bitmap_cell {α β : Type} {b : Bitmap α} (f : α → β) (hw : b.wf = true) (hs : b.isPanelSize = true) {x y : Nat} (hx : x < 600) (hy : y < 448) :
    ∃ row p, b.rows[y]? = some row ∧ row[x]? = some p ∧
      ((b.rows.map fun r => r.map f).flatten)[y * 600 + x]? = some (f p) := by
  simp only [Bitmap.isPanelSize, Bool.and_eq_true, decide_eq_true_eq] at hs
  simp only [Bitmap.wf, Bool.and_eq_true, decide_eq_true_eq, List.all_eq_true] at hw
  have hwid : b.width = 600 := hs.1
  have hhei : b.height = 448 := hs.2
  have hall : ∀ r ∈ b.rows, r.length = 600 := fun r hr => by have := hw.2 r hr; omega
  have hlen : y < b.rows.length := by omega
  clear hs hw hwid hhei
  generalize b.rows = rows at *
  induction rows generalizing y with
  | nil => simp at hlen
  | cons r rs ih =>
    have hr := hall r List.mem_cons_self
    cases y with
    | zero =>
      refine ⟨r, r[x]'(by omega), rfl, List.getElem?_eq_getElem _, ?_⟩
      simp only [List.map_cons, List.flatten_cons, Nat.zero_mul, Nat.zero_add]
      rw [List.getElem?_append_left (by simp; omega)]
      simp [hr, hx]
    | succ y =>
      obtain ⟨row, p, h1, h2, h3⟩ := ih (y := y) (by omega) (fun r hr => hall r (List.mem_cons_of_mem _ hr)) (by simpa using hlen)
      refine ⟨row, p, by simpa using h1, h2, ?_⟩
      simp only [List.map_cons, List.flatten_cons]
      rw [List.getElem?_append_right (by simp; omega)]
      have : (y + 1) * 600 + x - (r.map f).length = y * 600 + x := by simp; omega
      rw [this, h3]

/-! ## RENDER -/

/-- The transforms of RENDER, one after the other, read the cell the index map names (41_framebuffer.md
R160, R161). -/
theorem sourceCell_turned (m : Memory) (hf vf : Bool) (k n : Nat) (hk : k < 4) :
    turnedImage m hf vf k (n / turnedColumns k) (n % turnedColumns k) =
      m.read ((sourceCell hf vf k n).2 * 600 + (sourceCell hf vf k n).1) := by
  have : k = 0 ∨ k = 1 ∨ k = 2 ∨ k = 3 := by omega
  rcases this with rfl | rfl | rfl | rfl <;> cases hf <;> cases vf <;> rfl

/-- Element `n` of a rendered sequence. -/
theorem render_get (m : Memory) (hf vf : Bool) (k n : Nat) (hk : k < 4) (hn : n < 268800) :
    (renderSequence m hf vf k)[n]? = some (m.read ((sourceCell hf vf k n).2 * 600 + (sourceCell hf vf k n).1)) := by
  unfold renderSequence
  rw [List.getElem?_map, List.getElem?_range (show n < numPixels from hn)]
  simp [sourceCell_turned m hf vf k n hk]

/-! ## PACK -/

/-- A packed pair as a number (30_encoding.md R98). -/
theorem packPair_toNat : ∀ a b : Colour, (packPair a b).toNat = a.toNat * 16 + b.toNat := by decide

/-- The two nibbles of a packed pair. -/
theorem packPair_nibbles : ∀ a b : Colour, ((packPair a b).extractLsb' 4 4).toNat = a.toNat ∧ ((packPair a b).extractLsb' 0 4).toNat = b.toNat := by decide

/-- Bits 7 and 3 of a packed pair are 0 (30_encoding.md R103). -/
theorem packPair_bits : ∀ a b : Colour, (packPair a b).getLsbD 7 = false ∧ (packPair a b).getLsbD 3 = false := by decide

theorem packIndices_length (v : List Colour) : (packIndices v).length = v.length / 2 := by
  induction v using packIndices.induct with
  | case1 a b v ih => simp [packIndices, ih]; omega
  | case2 v h =>
    match v, h with
    | [], _ => rfl
    | [a], _ => simp [packIndices]
    | a :: b :: v, h => exact absurd rfl (h a b v)

/-- Byte `i` of a packed sequence (42_packer.md R180). -/
theorem packIndices_get (v : List Colour) (i : Nat) (a b : Colour) (h1 : v[2*i]? = some a) (h2 : v[2*i+1]? = some b) :
   (packIndices v)[i]? = some (packPair a b) := by
  induction v using packIndices.induct generalizing i with
  | case1 a' b' v ih =>
    cases i with
    | zero => simp at h1 h2; subst h1 h2; rfl
    | succ i =>
      have e : 2 * (i+1) = 2 * i + 1 + 1 := by ring
      rw [e] at h1 h2
      simpa [packIndices] using ih i (by simpa using h1) (by simpa using h2)
  | case2 v h =>
    match v, h with
    | [], _ => simp at h1
    | [a], _ => simp at h2
    | a :: b :: v, h => exact absurd rfl (h a b v)

/-- The frame SHOW sends has `FRAME_BYTES` bytes (43_protocol_driver.md R204). -/
theorem shownFrame_length (s : State) : s.shownFrame.length = frameBytes := by
  simp [State.shownFrame, packIndices_length, renderSequence, numPixels, frameBytes]

end Sys2Proof.Machine
end

