-- ==== Sys2Proof/Laws/Run.lean ====
section
/-! SUPPORT. Whole sequences: how a run goes through the positions of the microprogram. -/

namespace Sys2Proof.Machine

/-! ## A wait that is not answered -/

/-- A wait position whose pin never reads 1. -/
theorem microAction_stuck {s : State} (h : s.pinStuck) (hp : s.stepReg = 4 ∨ s.stepReg = 17 ∨ s.stepReg = 19 ∨ s.stepReg = 21 ∨ s.stepReg = 23) :
    ∃ m, (s.microAction (microOp s.stepReg)) = (s.awaitReady config.busyTimeout).1.raise .busyTimeout .none ∧
      (s.awaitReady config.busyTimeout).1.trace = s.trace ++ pollPairs m ∧ s.timer + config.busyTimeout ≤ (s.awaitReady config.busyTimeout).1.timer := by
  have ho : microOp s.stepReg = .await := by rcases hp with h | h | h | h | h <;> rw [h] <;> rfl
  have h1 : (s.awaitReady config.busyTimeout).2 = .busyTimeout := awaitLoop_stuck _ _ _ _ h
  obtain ⟨m, h2, h3⟩ := await_spec config.busyTimeout s
  rw [h1] at h2 h3
  refine ⟨m, ?_, by simpa using h2, ?_⟩
  · rw [ho]
    show settleMicro _ = _
    rw [settleMicro_error (by rw [h1]; decide), h1]
  · rcases h3 with ⟨h, _⟩ | ⟨_, _, _, h⟩
    · simp at h
    · exact h

/-! ## The invariant of a run -/

theorem csAsserted_ne_deasserted : config.csAsserted ≠ config.csDeasserted := by decide

theorem chipSelectOk_of_deasserted {s : State} (h : s.csOut = config.csDeasserted) : s.ChipSelectOk := by
  intro h'; rw [h] at h'; exact absurd h'.symm csAsserted_ne_deasserted

theorem idle_sequencerOk (u : State) (h1 : u.phase = .idle) (h2 : u.stepReg = 0) (h3 : u.inUpdate = false) (h4 : u.frame = []) : u.SequencerOk := by
  rw [State.SequencerOk, if_pos h1]; exact ⟨h2, h3, h4⟩

theorem advance_sequencerOk {s : State} (h : s.SequencerOk) (hp : s.phase ≠ .idle)
    (hn : s.stepReg.val = 15 → s.inUpdate = true) : s.advance.SequencerOk := by
  by_cases hl : s.stepReg.val + 1 < 25
  · rw [advance_next hl]
    rw [State.SequencerOk, if_neg hp] at h
    obtain ⟨h1, h2, h3⟩ := h
    rw [State.SequencerOk, if_neg (phaseOf_ne_idle _)]
    refine ⟨rfl, ?_, h3⟩
    intro hu
    have := h2 hu
    show s.stepReg.val + 1 ≤ 15
    rcases Nat.lt_or_ge s.stepReg.val 15 with h | h
    · omega
    · have := hn (by omega); simp [this] at hu
  · rw [advance_last (by omega)]
    exact idle_sequencerOk _ rfl rfl rfl rfl

theorem busMove_sequencerOk {s u : State} (h : BusMove s u) (hs : s.SequencerOk) : u.SequencerOk := by
  unfold State.SequencerOk at *
  rw [h.phase, h.stepReg, h.inUpdate, h.frame]; exact hs

theorem sendWire_chipSelectOk (c : WireCommand) (s : State) :
   ((s.sendWire c).1).ChipSelectOk := by
  rcases sendWire_result c s with ⟨_, h⟩ | ⟨_, h⟩
  · exact chipSelectOk_of_deasserted h
  · exact fun _ => h

theorem advance_chipSelectOk {s : State} (h : s.ChipSelectOk) : s.advance.ChipSelectOk := by
  unfold State.advance
  split_ifs <;> exact h

/-- A micro-step keeps the sequencer registers and chip-select in order. -/
theorem microAction_ok (s : State) (hp : s.phase ≠ .idle) (hs : s.SequencerOk) (hc : s.ChipSelectOk) :
    (s.microAction (microOp s.stepReg)).SequencerOk ∧ (s.microAction (microOp s.stepReg)).ChipSelectOk := by
  have idleOk : ∀ u : State, u.phase = .idle → u.stepReg = 0 → u.inUpdate = false → u.frame = [] → u.SequencerOk := by
    intro u h1 h2 h3 h4
    rw [State.SequencerOk, if_pos h1]; exact ⟨h2, h3, h4⟩
  have notEnd : ∀ op, microOp s.stepReg = op → op ≠ .endSetup → (s.stepReg.val = 15 → s.inUpdate = true) := by
    intro op ho hne h15
    exfalso
    have : s.stepReg = 15 := Fin.ext h15
    rw [this] at ho
    exact hne (ho.symm.trans rfl)
  have adv : ∀ u, BusMove s u → (s.stepReg.val = 15 → s.inUpdate = true) → u.advance.SequencerOk := by
    intro u hu h15
    refine advance_sequencerOk (busMove_sequencerOk hu hs) (by rw [hu.phase]; exact hp) ?_
    rw [hu.stepReg, hu.inUpdate]; exact h15
  cases ho : microOp s.stepReg with
  | driveReset b =>
    exact ⟨adv _ (driveReset_busMove b s) (notEnd _ ho (by simp)), advance_chipSelectOk (by
      intro h; simpa [lastTransferFailed] using hc h)⟩
  | wait d =>
    exact ⟨adv _ (delay_busMove d s) (notEnd _ ho (by simp)), advance_chipSelectOk (by
      intro h; simpa [lastTransferFailed] using hc h)⟩
  | await =>
    have hr := awaitLoop_result config.busyTimeout s.timer (maxSamples config.busyTimeout) s
    have hcs : ((s.awaitReady config.busyTimeout).1).ChipSelectOk := by
      intro h
      have h1 : (s.awaitReady config.busyTimeout).1.csOut = s.csOut := hr.2.1
      have h2 := hr.2.2.2.2.2 false
      rw [h1] at h
      exact h2.trans (hc h)
    unfold State.microAction
    unfold settleMicro
    dsimp only
    split_ifs
    · exact ⟨adv _ (awaitReady_busMove _ s) (notEnd _ ho (by simp)), advance_chipSelectOk hcs⟩
    · exact ⟨idleOk _ rfl rfl rfl rfl, hcs⟩
  | send c =>
    unfold State.microAction
    unfold settleMicro
    dsimp only
    split_ifs
    · exact ⟨adv _ (sendWire_busMove c s) (notEnd _ ho (by simp)), advance_chipSelectOk (sendWire_chipSelectOk c s)⟩
    · exact ⟨idleOk _ rfl rfl rfl rfl, sendWire_chipSelectOk c s⟩
  | endSetup =>
    unfold State.microAction
    dsimp only
    split_ifs with hu
    · exact ⟨adv s (BusMove.refl s) (fun _ => hu), advance_chipSelectOk hc⟩
    · exact ⟨idleOk _ rfl rfl rfl rfl, hc⟩
  | endUpdate => exact ⟨idleOk _ rfl rfl rfl rfl, hc⟩

theorem runSequence_ok (n : Nat) (s : State) (hs : s.SequencerOk) (hc : s.ChipSelectOk) :
    (s.runSequence n).SequencerOk ∧ (s.runSequence n).ChipSelectOk := by
  induction n generalizing s with
  | zero => exact ⟨hs, hc⟩
  | succ n ih =>
    by_cases h : s.phase = .idle
    · rw [runSequence_idle h]; exact ⟨hs, hc⟩
    · rw [runSequence_succ h]
      have := microAction_ok s h hs hc
      exact ih _ this.1 this.2

/-- A whole sequence leaves the sequencer registers and chip-select in order. -/
theorem sequence_ok (u : Bool) (f : List Byte) (s : State) (hf : u = true → f.length = frameBytes) (hc : s.ChipSelectOk) :
    (s.sequence u f).SequencerOk ∧ (s.sequence u f).ChipSelectOk := by
  unfold State.sequence
  refine runSequence_ok 25 _ ?_ hc
  rw [State.SequencerOk, if_neg (by simp)]
  exact ⟨rfl, fun _ => by simp, hf⟩

/-! ## A run whose pin is ready and whose transfers succeed -/

/-- The events of one action when the pin is ready and the transfers succeed (43_protocol_driver.md R200). -/
def opEvents (border : Colour) (f : List Byte) : MicroOp → List Event
  | .driveReset b => [.rst b]
  | .wait d => [.delay d]
  | .await => [.poll true]
  | .send c => commandEvents c.opcode (payload c { State.reset with border := border, frame := f })
  | _ => []

/-- The time an action asks for. -/
def opTime : MicroOp → Nat
  | .wait d => d
  | _ => 0

/-- A payload depends on BORDER and on the frame alone. -/
theorem payload_eq (c : WireCommand) (s : State) : payload c s = payload c { State.reset with border := s.border, frame := s.frame } := by
  cases c <;> rfl

/-- The events of the first `n` positions. -/
def eventsTo (border : Colour) (f : List Byte) : Nat → List Event
  | 0 => []
  | n + 1 => eventsTo border f n ++ (if h : n < 25 then opEvents border f (microOp ⟨n, h⟩) else [])

/-- The time the first `n` positions ask for. -/
def timeTo : Nat → Nat
  | 0 => 0
  | n + 1 => timeTo n + (if h : n < 25 then opTime (microOp ⟨n, h⟩) else 0)

/-- The state at position `n` of a run from `s0` that has met no obstacle. -/
structure Smooth (s0 : State) (n : Nat) (u : Bool) (f : List Byte) (es : List Event) (tm : Nat) (s : State) : Prop where
  lt : n < 25
  phase : s.phase = phaseOf ⟨n, lt⟩
  step : s.stepReg = ⟨n, lt⟩
  upd : s.inUpdate = u
  frame : s.frame = f
  trace : s.trace = s0.trace ++ es
  fb : s.fb = s0.fb
  border : s.border = s0.border
  hflip : s.hflip = s0.hflip
  vflip : s.vflip = s0.vflip
  rotation : s.rotation = s0.rotation
  requests : s.requests = s0.requests
  bus : s.busGood
  pin : s.pinReady
  rst : s.resetOut = resetLevel s0.resetOut es
  dc : s.dcOut = dcLevel s0.dcOut es
  cs : s.csOut = csLevel s0.csOut es
  timer : s0.timer + tm ≤ s.timer

theorem Smooth.next {s0 s : State} {n : Nat} {u : Bool} {f : List Byte} {es : List Event} {tm : Nat} (h : Smooth s0 n u f es tm s)
    (hn : n + 1 < 25) (he : microOp ⟨n, h.lt⟩ ≠ .endUpdate) (hu : microOp ⟨n, h.lt⟩ = .endSetup → u = true) :
    Smooth s0 (n + 1) u f (es ++ opEvents s0.border f (microOp ⟨n, h.lt⟩)) (tm + opTime (microOp ⟨n, h.lt⟩)) s.microStep := by
  have adv : ∀ t : State, BusMove s t → t.trace = s.trace ++ opEvents s0.border f (microOp ⟨n, h.lt⟩) → t.busGood → t.pinReady →
      t.resetOut = resetLevel s.resetOut (opEvents s0.border f (microOp ⟨n, h.lt⟩)) → 
      t.dcOut = dcLevel s.dcOut (opEvents s0.border f (microOp ⟨n, h.lt⟩)) → 
      t.csOut = csLevel s.csOut (opEvents s0.border f (microOp ⟨n, h.lt⟩)) → 
      s.timer + opTime (microOp ⟨n, h.lt⟩) ≤ t.timer →
      Smooth s0 (n + 1) u f (es ++ opEvents s0.border f (microOp ⟨n, h.lt⟩)) (tm + opTime (microOp ⟨n, h.lt⟩)) t.advance := by
    intro t ht htr hb hp hr hdc hcs htm
    have hst : t.stepReg = ⟨n, h.lt⟩ := ht.stepReg.trans h.step
    have hl : t.stepReg.val + 1 < 25 := by rw [hst]; exact hn
    rw [advance_next hl]
    have hfin : (⟨t.stepReg.val + 1, hl⟩ : Fin 25) = ⟨n + 1, hn⟩ := by simp [hst]
    exact ⟨hn, by simp [hst], hfin, ht.inUpdate.trans h.upd, ht.frame.trans h.frame,
      by show t.trace = _; rw [htr, h.trace, List.append_assoc],
      ht.fb.trans h.fb, ht.border.trans h.border, ht.hflip.trans h.hflip, ht.vflip.trans h.vflip, ht.rotation.trans h.rotation,
      ht.requests.trans h.requests, hb, hp, by rw [resetLevel_append, ← h.rst]; exact hr, by rw [dcLevel_append, ← h.dc]; exact hdc,
      by rw [csLevel_append, ← h.cs]; exact hcs, by have := h.timer; show s0.timer + _ ≤ t.timer; omega⟩
  unfold State.microStep
  rw [h.step]
  generalize hop : microOp ⟨n, h.lt⟩ = op at *
  cases op with
  | driveReset b => exact adv _ (driveReset_busMove b s) rfl h.bus h.pin rfl rfl rfl (le_refl _)
  | wait d => exact adv _ (delay_busMove d s) rfl h.bus h.pin rfl rfl rfl (Nat.le_add_right _ _)
  | await =>
    show Smooth _ _ _ _ _ _ (settleMicro _)
    have hr := awaitReady_at_once config.busyTimeout (s := s) h.pin.look.1
    rw [hr, settleMicro_ok rfl]
    refine adv _ (sample_busMove s) ?_ h.bus h.pin.look.2 rfl rfl rfl (le_refl _)
    simp [h.pin.look.1, opEvents]
  | send c =>
    show Smooth _ _ _ _ _ _ (settleMicro _)
    have hr : s.sendWire c = _ := sendCommand_ok c.opcode (payload c s) h.bus
    have hm := sendWire_busMove c s
    rw [hr] at hm ⊢
    rw [settleMicro_ok rfl]
    have hpe : payload c s = payload c { State.reset with border := s0.border, frame := f } := by rw [payload_eq c s, h.border, h.frame]
    have hr' := resetLevel_command c.opcode (payload c { State.reset with border := s0.border, frame := f }) s.resetOut
    have hd' := dcLevel_command c.opcode (payload c { State.reset with border := s0.border, frame := f }) s.dcOut
    have hc' := csLevel_command c.opcode (payload c { State.reset with border := s0.border, frame := f }) s.csOut
    refine adv _ hm ?_ (h.bus.after _) h.pin hr'.symm ?_ hc'.symm (le_refl _)
    · show s.trace ++ commandEvents c.opcode (payload c s) = _
      rw [hpe]; rfl
    · show commandDc (payload c s) = _
      rw [hpe]; exact hd'.symm
  | endSetup =>
    show Smooth _ _ _ _ _ _ (if s.inUpdate then s.advance else s.finish)
    rw [if_pos (h.upd.trans (hu rfl))]
    exact adv _ (BusMove.refl s) (by simp [opEvents]) h.bus h.pin rfl rfl rfl (le_refl _)
  | endUpdate => exact absurd rfl he

/-- Such a run reaches every position up to the end of its sequence. -/
theorem smooth_reach (s0 : State) (u : Bool) (f : List Byte) (hb : s0.busGood) (hp : s0.pinReady) (k : Nat) (hk : k < 25) (hu : 15 < k → u = true) :
    ∃ s, Smooth s0 k u f (eventsTo s0.border f k) (timeTo k) s ∧ (s0.start u f).runSequence 25 = s.runSequence (25 - k) := by
  induction k with
  | zero => exact ⟨s0.start u f, ⟨by omega, rfl, rfl, rfl, rfl, by simp [eventsTo], rfl, rfl, rfl, rfl, rfl, rfl, hb, hp, rfl, rfl, rfl, by simp [timeTo]⟩, rfl⟩
  | succ k ih =>
    obtain ⟨s, hs, hr⟩ := ih (by omega) (fun h => hu (by omega))
    have h1 : microOp ⟨k, hs.lt⟩ ≠ .endUpdate := by
      have : ∀ n : Fin 25, n.val < 24 → microOp n ≠ .endUpdate := by decide
      exact this _ (by show k < 24; omega)
    have h2 : microOp ⟨k, hs.lt⟩ = .endSetup → u = true := by
      have : ∀ n : Fin 25, microOp n = .endSetup → n.val = 15 := by decide
      intro h
      exact hu (by have := this _ h; dsimp at this; omega)
    have := hs.next hk h1 h2
    refine ⟨s.microStep, ?_, ?_⟩
    · simp only [eventsTo, timeTo, dif_pos hs.lt]; exact this
    · rw [hr, show 25 - k = (25 - (k + 1)) + 1 by omega, runSequence_succ (by rw [hs.phase]; exact phaseOf_ne_idle _)]

/-- The whole of an UPDATE that meets no obstacle: position 24 is reached and ends the sequence. -/
theorem sequence_smooth (f : List Byte) {s : State} (hb : s.busGood) (hp : s.pinReady) :
    ∃ t, Smooth s 24 true f (eventsTo s.border f 24) (timeTo 24) t ∧ s.sequence true f = t.finish := by
  obtain ⟨t, ht, hr⟩ := smooth_reach s true f hb hp 24 (by omega) (by simp)
  refine ⟨t, ht, ?_⟩
  unfold State.sequence
  rw [hr, show 25 - 24 = 0 + 1 by rfl, runSequence_succ (by rw [ht.phase]; exact phaseOf_ne_idle _)]
  have : t.microStep = t.finish := by
    unfold State.microStep
    rw [ht.step]
    rfl
  rw [this, runSequence_idle rfl]

theorem sequence_smooth_result (f : List Byte) {s : State} (hb : s.busGood) (hp : s.pinReady) :
    (s.sequence true f).result = .ok := by
  obtain ⟨t, _, h⟩ := sequence_smooth f hb hp
  rw [h]; rfl

end Sys2Proof.Machine
end

