-- ==== Sys2Proof/Tests/Slice0.lean ====
section
/-! SUPPORT. The model's own tests. Expected results are those of spec/95_test_vectors.md (named V-... or
S...), of the examples in the rules, or worked out by hand from the encoding tables of
spec/30_encoding.md. -/

namespace Sys2Proof.Tests

open Sys2Proof Sys2Proof.Machine

/-! ## Helpers -/

/-- A field of the next state an instruction gives, if it gives one. -/
def after {α : Type} (f : State → α) : Answer → Option α
  | .next t => some (f t)
  | .fault _ => none
  | .refused _ => none

/-- The refusal an instruction ends in, if it does. -/
def refusalOf : Answer → Option Refusal
  | .refused r => some r
  | _ => none

/-- The instruction a request decodes to. -/
def ask (opsel : Byte) (ops : List Operand) : Except DecodeError Instr := decode (.request ⟨opsel, ops⟩)

/-- The block right after reset, which is Idle. -/
abbrev s0 : State := State.reset

/-- A block in an UPDATE at a position of the microprogram, with an empty frame in flight. -/
def atStep (n : Fin 25) : State := { s0 with phase := phaseOf n, stepReg := n, inUpdate := true }

/-- A block whose busy pin never reads 1. -/
def silent (s : State) : State := { s with busyIn := ⟨false, []⟩ }

/-- A block whose next transfer fails. -/
def cut (s : State) : State := { s with bus := ⟨true, [false]⟩ }

/-- A bitmap of one colour. -/
def solid {α : Type} (w h : Nat) (p : α) : Bitmap α := ⟨w, h, List.replicate h (List.replicate w p)⟩

theorem test_solid_wf {α : Type} (w h : Nat) (p : α) : (solid w h p).wf = true := by
  simp [solid, Bitmap.wf]

/-- A frame of one byte. -/
def solidFrame (n : Nat) (b : Byte) : List Byte := List.replicate n b

theorem test_solidFrame_length (n : Nat) (b : Byte) : (solidFrame n b).length = n := List.length_replicate

theorem test_solidFrame_wf (b : Byte) : (Instr.update (solidFrame frameBytes b)).wf = true := by
  simp only [Instr.wf, test_solidFrame_length, decide_true]

/-! ## Well-formedness: one ill-formed term for each check -/

theorem test_wf_image_rows : (Instr.setImage (.rgb ⟨1, 2, [[⟨0, 0, 0⟩]]⟩) 0).wf = false := by decide
theorem test_wf_image_columns : (Instr.setImage (.indexed ⟨2, 1, [[0]]⟩) 0).wf = false := by decide
theorem test_wf_image_good : (Instr.setImage (.indexed ⟨1, 1, [[0]]⟩) 0).wf = true := by decide
theorem test_wf_quantize_size :
    (Instr.quantize ⟨1, 1, [[⟨0, 0, 0⟩]]⟩ (List.replicate 8 ⟨0, 0, 0⟩)).wf = false := by decide
theorem test_wf_quantize_rows :
    (Instr.quantize ⟨600, 448, []⟩ (List.replicate 8 ⟨0, 0, 0⟩)).wf = false := by decide
theorem test_wf_quantize_palette :
    (Instr.quantize zeroBitmap (List.replicate 7 ⟨0, 0, 0⟩)).wf = false := by
  simp [Instr.wf]
theorem test_wf_render : (Instr.render 0 false false 45).wf = false := by decide
theorem test_wf_render_negative : (Instr.render 0 false false (-90)).wf = true := by decide
theorem test_wf_update : (Instr.update [0]).wf = false := by decide

/-! ## Decoding: every constructor, from the tables of 30_encoding.md R93, R107, R108 -/

theorem test_decode_set_pixel : ask 0x01 [.int 599, .int (-1), .int 12] = .ok (.setPixel 599 (-1) 12) := rfl
theorem test_decode_set_image :
    ask 0x02 [.image (.indexed ⟨1, 1, [[15]]⟩), .rat (1/2)] =
      .ok (.setImage (.indexed ⟨1, 1, [[15]]⟩) (1/2)) := rfl
theorem test_decode_set_border : ask 0x03 [.int 9] = .ok (.setBorder 9) := rfl
theorem test_decode_show : ask 0x04 [] = .ok .showPanel := rfl
theorem test_decode_setup : ask 0x05 [] = .ok .setup := rfl
theorem test_decode_set_hflip : ask 0x06 [.int 1] = .ok (.setHflip true) := rfl
theorem test_decode_set_vflip : ask 0x07 [.int 0] = .ok (.setVflip false) := rfl
theorem test_decode_set_rotation : ask 0x08 [.int (-90)] = .ok (.setRotation (-90)) := rfl
theorem test_decode_blend : ask 0x10 [.rat (3/2)] = .ok (.blend (3/2)) := rfl
theorem test_decode_blend24 : ask 0x11 [.rat (1/4)] = .ok (.blend24 (1/4)) := rfl
theorem test_decode_quantize (p : Rgb) :
    ask 0x12 [.image (.rgb (solid panelWidth panelHeight p)), .triples (List.replicate 8 ⟨0, 0, 0⟩)] =
      .ok (.quantize (solid panelWidth panelHeight p) (List.replicate 8 ⟨0, 0, 0⟩)) :=
  decode_of_operands (f := decodeQuantize) rfl rfl rfl (by simp only [Instr.wf, test_solid_wf]; rfl)
theorem test_decode_render :
    ask 0x13 [.int 6, .int 1, .int 0, .int 270] = .ok (.render 6 true false 270) := rfl
theorem test_decode_pack : ask 0x14 [.ints [5, 6]] = .ok (.pack [5, 6]) := rfl
theorem test_decode_update (b : Byte) :
    ask 0x15 [.bytes (solidFrame frameBytes b)] = .ok (.update (solidFrame frameBytes b)) :=
  decode_of_operands (f := decodeUpdate) rfl rfl rfl (test_solidFrame_wf b)
theorem test_decode_send_command :
    ask 0x16 [.int 0xE3, .bytes [0xAA]] = .ok (.sendCommand 0xE3 [0xAA]) := rfl
theorem test_decode_await_ready : ask 0x17 [.int 15000] = .ok (.awaitReady 15000) := rfl
theorem test_decode_write : ask 0x18 [.int 1, .bytes [0x04, 0x05]] = .ok (.write true [0x04, 0x05]) := rfl

/-- The opcode bytes of R93, command by command. -/
theorem test_decode_wire :
    [0x61, 0x00, 0x01, 0x30, 0x41, 0x50, 0x60, 0x65, 0xE3, 0x03, 0x10, 0x04, 0x12, 0x02].map wireCommandOf =
      [some .tres, some .psr, some .pwr, some .pll, some .tse, some .cdi, some .tcon, some .dam,
       some .pws, some .pfs, some .dtm1, some .pon, some .drf, some .pof] := by decide
theorem test_decode_tres : decode (.wire 0x61) = .ok .tres := rfl
theorem test_decode_psr : decode (.wire 0x00) = .ok .psr := rfl
theorem test_decode_pwr : decode (.wire 0x01) = .ok .pwr := rfl
theorem test_decode_pll : decode (.wire 0x30) = .ok .pll := rfl
theorem test_decode_tse : decode (.wire 0x41) = .ok .tse := rfl
theorem test_decode_cdi : decode (.wire 0x50) = .ok .cdi := rfl
theorem test_decode_tcon : decode (.wire 0x60) = .ok .tcon := rfl
theorem test_decode_dam : decode (.wire 0x65) = .ok .dam := rfl
theorem test_decode_pws : decode (.wire 0xE3) = .ok .pws := rfl
theorem test_decode_pfs : decode (.wire 0x03) = .ok .pfs := rfl
theorem test_decode_dtm1 : decode (.wire 0x10) = .ok .dtm1 := rfl
theorem test_decode_pon : decode (.wire 0x04) = .ok .pon := rfl
theorem test_decode_drf : decode (.wire 0x12) = .ok .drf := rfl
theorem test_decode_pof : decode (.wire 0x02) = .ok .pof := rfl

/-! ### What the decoder rejects, by name -/

theorem test_reject_opsel_00 : ask 0x00 [] = .error (.unknownOpsel 0x00) := rfl
theorem test_reject_opsel_09 : ask 0x09 [] = .error (.unknownOpsel 0x09) := rfl
theorem test_reject_opsel_19 : ask 0x19 [] = .error (.unknownOpsel 0x19) := rfl
theorem test_reject_opcode : decode (.wire 0x05) = .error (.unknownOpcode 0x05) := rfl
theorem test_reject_flag : ask 0x06 [.int 2] = .error (.badOperands 0x06) := rfl
theorem test_reject_colour : ask 0x14 [.ints [7, 8]] = .error (.badOperands 0x14) := rfl
theorem test_reject_count : ask 0x04 [.int 0] = .error (.badOperands 0x04) := rfl
theorem test_reject_rotation :
    ask 0x13 [.int 0, .int 0, .int 0, .int 45] = .error (.illFormed 0x13) := rfl
theorem test_reject_frame : ask 0x15 [.bytes [0x44]] = .error (.illFormed 0x15) := rfl

/-- Fourteen different opcodes (92 D3). -/
theorem test_opcodes_distinct :
    ([config.opTres, config.opPsr, config.opPwr, config.opPll, config.opTse, config.opCdi, config.opTcon,
      config.opDam, config.opPws, config.opPfs, config.opDtm1, config.opPon, config.opDrf,
      config.opPof] : List Byte).Nodup := by decide

/-- A command list is read back by opcode and number of data bytes (30 R91, R93). -/
theorem test_decode_command :
    decodeCommand 0x61 [0x02, 0x58, 0x01, 0xC0] = some .tres ∧ decodeCommand 0x61 [0x02] = none := by
  decide

/-! ## The words of the opcode table -/

theorem test_table_set_pixel : decodeTableWord 8 0x01 = some (.setPixel 0 0 0) := by decide
theorem test_table_tres : decodeTableWord 8 0x61 = some .tres := by decide
theorem test_table_unused : decodeTableWord 8 0xFF = none := by decide
/-- With no request waiting the word's instruction is the first one run after reset. -/
theorem test_place_wire :
    after (fun t => t.trace) (step (s0.withFetchWord 8 0x60)) =
      some [.cs false, .dc false, .xfer [0x60], .cs true, .cs false, .dc true, .xfer [0x22], .cs true] := by
  decide
theorem test_place_request :
    after (fun t => (t.border, t.requests)) (step (s0.withFetchWord 8 0x03)) = some (0, []) := by decide

/-- 70 R304: AWAIT_READY in the host's name is refused, and the same request of the bench runs (D26). -/
theorem test_host_await_ready :
    refusalOf (step { s0 with requests := [⟨.host, ⟨0x17, [.int 0]⟩⟩] }) = some (.notHostCallable 0x17) ∧
    after State.trace (step { s0 with requests := [⟨.bench, ⟨0x17, [.int 0]⟩⟩] }) = some [.poll true] := by decide
theorem test_place_component :
    after State.trace (step (s0.withFetchWord 8 0x18)) = some [.cs false, .dc false, .cs true] := by decide

/-! ## Frame buffer writers -/

/-- V-FB-2: 9 & 7 = 1, at address 20*600 + 10. -/
theorem test_set_pixel_masks :
    after (fun t => (t.fb, t.result)) (exec (.setPixel 10 20 9) s0) = some ([(12010, 1)], .ok) := by decide
/-- V-FB-5: the bounds come before the mask. -/
theorem test_set_pixel_bounds :
    after (fun t => (t.fb, t.result, t.reply)) (exec (.setPixel 600 0 99) s0) =
      some ([], .outOfBounds, .coords 600 0) := by decide
/-- V-FB-3: a cell written with 8 reads 0 and leaves the list. -/
theorem test_memory_write_zero : Memory.read (Memory.write [(3005, 4)] 3005 (maskColour 8)) 3005 = 0 ∧
    Memory.write [(3005, 4)] 3005 (maskColour 8) = [] := by decide
/-- V-FB-7. -/
theorem test_set_image_size :
    after (fun t => (t.result, t.trace)) (exec (.setImage (.rgb ⟨601, 448, []⟩) 1) { s0 with fb := [(1, 1)] }) =
      some (.sizeMismatch, []) := by decide
/-- V-FB-8: values mod 8, negative ones too. -/
theorem test_set_image_indexed :
    imageIndices (.indexed ⟨3, 1, [[15, 8, -1]]⟩) (5/7) = [[7, 0, 7]] := by decide
/-- V-FB-9. -/
theorem test_set_border_stores : after State.border (exec (.setBorder 4) s0) = some 4 := by decide
theorem test_set_border_ignores :
    after (fun t => (t.border, t.result)) (exec (.setBorder 9) s0) = some (1, .ok) := by decide
/-- V-FB-11. -/
theorem test_set_hflip : after (fun t => (t.hflip, t.vflip)) (exec (.setHflip true) s0) = some (true, false) := by
  decide
theorem test_set_vflip : after (fun t => (t.hflip, t.vflip)) (exec (.setVflip true) s0) = some (false, true) := by
  decide
/-- V-FB-12. -/
theorem test_set_rotation :
    after (fun t => (t.rotation, t.result)) (exec (.setRotation 45) { s0 with rotation := 90 }) =
      some (90, .invalidArgument) := by decide
theorem test_set_rotation_negative :
    after (fun t => (t.rotation, quarterTurns t.rotation)) (exec (.setRotation (-90)) s0) = some (-90, 3) := by
  decide

/-! ## The Palette Engine -/

/-- V-PAL-3. -/
theorem test_blend_half :
    after State.reply (exec (.blend (1/2)) s0) =
      some (.flat [28, 24, 28, 255, 255, 255, 29, 173, 35, 30, 29, 174, 205, 36, 37, 231, 222, 35, 216, 123, 36,
        255, 255, 255]) := by decide +kernel
/-- V-PAL-8: no clamp, and -28.5 truncates toward zero. -/
theorem test_blend_extrapolates :
    (blendPalette (-1/2)).take 3 = [⟨-28, -24, -28⟩, ⟨255, 255, 255⟩, ⟨-29, 337, -35⟩] := by decide +kernel
/-- V-PAL-10. -/
theorem test_blend24_half :
    after State.reply (exec (.blend24 (1/2)) s0) =
      some (.packed [0x1C181C, 0xFFFFFF, 0x1DAD23, 0x1E1DAE, 0xCD2425, 0xE7DE23, 0xD87B24, 0xFFFFFF]) := by
  decide +kernel
/-- V-PAL-12: at 2 entry 2 is (116, -73, 140). -/
theorem test_blend24_refused :
    refusalOf (exec (.blend24 2) s0) = some .channelOutOfRange := by decide +kernel
/-- V-Q-1, V-Q-3, V-Q-5, V-Q-6. -/
theorem test_quantize_saturated :
    [(⟨255, 0, 0⟩ : Rgb), ⟨255, 255, 255⟩, ⟨255, 140, 0⟩, ⟨200, 100, 70⟩].map (nearest (blendPalette 1)) =
      [4, 1, 5, 6] := by decide +kernel
/-- V-Q-11, V-Q-10: a tie of 1 and 7 gives 1. -/
theorem test_quantize_half :
    [(⟨100, 150, 60⟩ : Rgb), ⟨250, 250, 250⟩].map (nearest (blendPalette (1/2))) = [2, 1] := by decide +kernel
/-- V-Q-1, the distances. -/
theorem test_quantize_distances :
    ((blendPalette 1).map fun p => Machine.dist p ⟨255, 0, 0⟩) =
      [44757, 130050, 51990, 49953, 20610, 43350, 22649, 130050] := by decide +kernel
/-- 40_palette.md R131 (b): with the default tables pure red is nearest to RED at saturation 1. -/
theorem test_palette_constraint : nearest (blendPalette 1) ⟨255, 0, 0⟩ = 4 := by decide +kernel

/-! ## RENDER and PACK -/

/-- V-RND-3a and V-RND-4a: the seven source cells for one and for three quarter turns. -/
theorem test_render_turns :
    [0, 1, 599, 600, 447, 448, 268799].map (sourceCell false false 1) =
      [(599, 0), (599, 1), (598, 151), (598, 152), (599, 447), (598, 0), (0, 447)] ∧
    [0, 1, 599, 600, 447, 448, 268799].map (sourceCell false false 3) =
      [(0, 447), (0, 446), (1, 296), (1, 295), (0, 0), (1, 447), (599, 0)] := by decide
/-- V-RND-6: cells (0,0) = 4 and (1,0) = 5 after one quarter turn stand at elements 599*448 and 598*448. -/
theorem test_render_marked :
    turnedImage [(0, 4), (1, 5)] false false 1 599 0 = 4 ∧ turnedImage [(0, 4), (1, 5)] false false 1 598 0 = 5 ∧
    turnedImage [(0, 4), (1, 5)] true false 0 0 598 = 5 := by decide
/-- V-PACK-2. -/
theorem test_pack :
    after State.reply (exec (.pack [4, 4, 1, 1, 0, 7, 7, 0, 5, 6, 2, 3]) s0) =
      some (.bytes [0x44, 0x11, 0x07, 0x70, 0x56, 0x23]) := by decide
/-- V-PACK-5. -/
theorem test_pack_odd :
    after (fun t => (t.result, t.reply)) (exec (.pack [1, 2, 3]) s0) =
      some (.invalidArgument, .oddSequence [1, 2, 3]) := by decide

/-! ## The transport and the driver's primitives -/

/-- V-XPT-1. -/
theorem test_write_command :
    after State.trace (exec (.write false [0x04]) s0) = some [.cs false, .dc false, .xfer [0x04], .cs true] := by
  decide
/-- V-XPT-4. -/
theorem test_write_empty :
    after State.trace (exec (.write true []) s0) = some [.cs false, .dc true, .cs true] := by decide
/-- V-XPT-2: 4097 bytes are two transfers, of 4096 and 1. -/
theorem test_write_chunks : (chunks (List.replicate 4097 0x5A)).map List.length = [4096, 1] := by decide +kernel
/-- V-DRV-5. -/
theorem test_send_command :
    after State.trace (exec (.sendCommand 0x61 [0x02, 0x58, 0x01, 0xC0]) s0) =
      some [.cs false, .dc false, .xfer [0x61], .cs true, .cs false, .dc true,
        .xfer [0x02, 0x58, 0x01, 0xC0], .cs true] := by decide
/-- V-DRV-10, the failing command on its own: the data write is not attempted. -/
theorem test_send_command_fails :
    after (fun t => (t.trace, t.result)) (exec (.sendCommand 0x30 [0x3C]) (cut s0)) =
      some ([.cs false, .dc false, .xfail [0x30]], .transportFailure) := by decide
/-- V-DRV-2. -/
theorem test_await_ready :
    after (fun t => (t.trace, t.result, t.timer))
      (exec (.awaitReady 15000) { s0 with busyIn := ⟨false, [false, false, true]⟩ }) =
      some ([.poll false, .delay 10, .poll false, .delay 10, .poll true], .ok, 20) := by decide +kernel
/-- 43 R192: with a timeout of 20 ms N_MAX is 2. -/
theorem test_await_timeout :
    after (fun t => (t.trace, t.result)) (exec (.awaitReady 20) (silent s0)) =
      some ([.poll false, .delay 10, .poll false, .delay 10], .busyTimeout) := by decide

/-! ## The wire commands: bytes on the wire (44_wire_commands.md), one step of a running sequence -/

/-- The events and the next position of a wire command at its position. -/
def sent (c : WireCommand) (s : State) : Option (List Event × Fin 25) :=
  after (fun t => (t.trace, t.stepReg)) (step { s with phase := phaseOf (microPosition c), stepReg := microPosition c })

/-- One command with data, as V-DRV-1 writes it. -/
def line (op : Byte) (data : List Byte) : List Event :=
  [.cs false, .dc false, .xfer [op], .cs true, .cs false, .dc true, .xfer data, .cs true]

theorem test_tres : sent .tres s0 = some (line 0x61 [0x02, 0x58, 0x01, 0xC0], 6) := by decide
theorem test_psr : sent .psr s0 = some (line 0x00 [0xEF, 0x08], 7) := by decide
theorem test_pwr : sent .pwr s0 = some (line 0x01 [0x37, 0x00, 0x23, 0x23], 8) := by decide
theorem test_pll : sent .pll s0 = some (line 0x30 [0x3C], 9) := by decide
theorem test_tse : sent .tse s0 = some (line 0x41 [0x00], 10) := by decide
theorem test_cdi : sent .cdi s0 = some (line 0x50 [0x37], 11) := by decide
/-- V-DRV-6: the eight bytes. -/
theorem test_cdi_bytes :
    [0, 1, 2, 3, 4, 5, 6, 7].map cdiByte = [0x17, 0x37, 0x57, 0x77, 0x97, 0xB7, 0xD7, 0xF7] := by decide
theorem test_tcon : sent .tcon s0 = some (line 0x60 [0x22], 12) := by decide
theorem test_dam : sent .dam s0 = some (line 0x65 [0x00], 13) := by decide
theorem test_pws : sent .pws s0 = some (line 0xE3 [0xAA], 14) := by decide
theorem test_pfs : sent .pfs s0 = some (line 0x03 [0x00], 15) := by decide
theorem test_dtm1 : sent .dtm1 { s0 with frame := [0x44, 0x11] } = some (line 0x10 [0x44, 0x11], 17) := by decide
theorem test_pon : sent .pon s0 = some ([.cs false, .dc false, .xfer [0x04], .cs true], 19) := by decide
theorem test_drf : sent .drf s0 = some ([.cs false, .dc false, .xfer [0x12], .cs true], 21) := by decide
theorem test_pof : sent .pof s0 = some ([.cs false, .dc false, .xfer [0x02], .cs true], 23) := by decide

/-! ## The sequencer -/

/-- R31: the phase of each position. -/
theorem test_phases :
    (List.finRange 25).map phaseOf =
      List.replicate 5 .resetting ++ List.replicate 11 .configuring ++ List.replicate 2 .transmittingData ++
      List.replicate 2 .awaitingPowerOn ++ List.replicate 2 .refreshing ++ List.replicate 3 .poweringOff := by
  decide
/-- R201: position 15 ends a lone SETUP and is passed by an UPDATE. -/
theorem test_end_of_setup :
    after (fun t => (t.phase, t.stepReg, t.result)) (step { atStep 15 with inUpdate := false }) =
      some (.idle, 0, .ok) := by decide
theorem test_end_of_setup_in_update :
    after (fun t => (t.phase, t.stepReg)) (step (atStep 15)) = some (.transmittingData, 16) := by decide
theorem test_end_of_update :
    after (fun t => (t.phase, t.stepReg, t.inUpdate)) (step (atStep 24)) = some (.idle, 0, false) := by decide
/-- V-DRV-1: what SETUP leaves, and how many transfers it made. -/
theorem test_setup :
    after (fun t => (t.phase, t.result, t.dcOut, t.timer, t.trace.length)) (exec .setup s0) =
      some (.idle, .ok, true, 200, 85) := by decide +kernel
/-- A block operation while a sequence runs. -/
theorem test_request_while_running :
    (match exec (.setBorder 4) (atStep 16) with
      | .fault .requestWhileRunning => true
      | _ => false) = true := by decide
/-- 43 R202: a frame of another length is refused. -/
theorem test_update_length : refusalOf (exec (.update [0x44]) s0) = some (.illFormed "UPDATE") := by decide
/-- 60 R260: the numbers of the result codes. -/
theorem test_result_codes :
    [ResultCode.ok, .sizeMismatch, .busyTimeout, .transportFailure, .outOfBounds, .invalidArgument].map
      ResultCode.code = [0, 1, 2, 3, 4, 5] := by decide
/-- 30 R91: the trace of PON then DRF read as a command list. -/
theorem test_command_list :
    cutCommands false (byteStream true ((line 0x60 [0x22]) ++ [.cs false, .dc false, .xfer [0x04], .cs true])) =
      [(0x60, [0x22]), (0x04, [])] := by decide

/-! ## Witnesses: concrete values that meet all the hypotheses of each obligation -/

/-- A bitmap of the panel's size, every pixel pure red. -/
def redBitmap : Bitmap Rgb := solid 600 448 ⟨255, 0, 0⟩

/-- An indexed bitmap of the panel's size, every value 15. -/
def bigIndexed : Bitmap Int := solid 600 448 15

theorem test_hyp_DecodeInvertsEncode : (Instr.update (solidFrame frameBytes 0x44)).wf = true :=
  test_solidFrame_wf 0x44
theorem test_hyp_UnknownSelectorIsRefused :
    let q : Call := ⟨.host, ⟨0x09, []⟩⟩
    let s : State := { s0 with requests := [q] }
    ¬ (1 ≤ q.request.opsel.toNat ∧ q.request.opsel.toNat ≤ 8) ∧
      ¬ (0x10 ≤ q.request.opsel.toNat ∧ q.request.opsel.toNat ≤ 0x18) ∧
      s.phase = .idle ∧ s.requests = [q] := by decide
/-- The other boundary values: 0x00, 0x0F, 0x19, 0xFF. -/
theorem test_hyp_UnknownSelectorIsRefused_boundary :
    ∀ n ∈ [0x00, 0x0F, 0x19, 0xFF], ¬ (1 ≤ n ∧ n ≤ 8) ∧ ¬ (0x10 ≤ n ∧ n ≤ 0x18) := by decide
/-- One value at each edge of each clause. -/
theorem test_hyp_IllFormedEncodingsAreRefused :
    (∀ op ∈ [(0x05 : Byte), 0xFF], op ∉ ([0x61, 0x00, 0x01, 0x30, 0x41, 0x50, 0x60, 0x65, 0xE3, 0x03, 0x10, 0x04,
      0x12, 0x02] : List Byte)) ∧
    (∀ b ∈ [(-1 : Int), 2], b ≠ 0 ∧ b ≠ 1) ∧ (∀ n ∈ [(-1 : Int), 8], n < 0 ∨ 7 < n) ∧
    (8 : Int) ∈ [(7 : Int), 8] ∧ (∀ n ∈ [(-1 : Int), 256], n < 0 ∨ 255 < n) ∧ (-1 : Int) < 0 ∧
    (solidFrame 134399 0x44).length ≠ 134400 ∧
    ((0 : Int) ≤ 7 ∧ (7 : Int) ≤ 7 ∧ ((1 : Int) = 0 ∨ (1 : Int) = 1) ∧ (89 : Int) % 90 ≠ 0) :=
  ⟨by decide, by decide, by decide, by decide, by decide, by decide,
    fun h => absurd ((test_solidFrame_length 134399 0x44).symm.trans h) (by decide), by decide⟩
theorem test_hyp_IllFormedEncodingsAreRefused_step :
    let s : State := { s0 with requests := [⟨.bench, ⟨0x14, [.ints [7, 8]]⟩⟩] }
    s.phase = .idle ∧ s.requests = ⟨.bench, ⟨0x14, [.ints [7, 8]]⟩⟩ :: [] ∧
      decode (.request ⟨0x14, [.ints [7, 8]]⟩) = .error (.badOperands 0x14) := ⟨rfl, rfl, rfl⟩
theorem test_hyp_StepExecutesDecodedRequest :
    let q : Call := ⟨.host, ⟨0x01, [.int 10, .int 20, .int 9]⟩⟩
    let s : State := { s0 with requests := [q] }
    s.phase = .idle ∧ s.requests = q :: [] ∧ decode (.request q.request) = .ok (.setPixel 10 20 9) ∧
      q.caller.mayRequest (.setPixel 10 20 9) = true := ⟨rfl, rfl, rfl, rfl⟩
theorem test_hyp_StepExecutesDecodedRequest_bench :
    let q : Call := ⟨.bench, ⟨0x18, [.int 0, .bytes [0x04]]⟩⟩
    let s : State := { s0 with requests := [q] }
    s.phase = .idle ∧ s.requests = q :: [] ∧ decode (.request q.request) = .ok (.write false [0x04]) ∧
      q.caller.mayRequest (.write false [0x04]) = true := ⟨rfl, rfl, rfl, rfl⟩
theorem test_hyp_StepExecutesDecodedRequest_none : s0.phase = .idle ∧ s0.requests = [] := ⟨rfl, rfl⟩
/-- The first and the last selector of both ranges: SET_PIXEL, SET_ROTATION, BLEND, WRITE. -/
theorem test_hyp_ComponentOperationIsNoHostRequest :
    s0.phase = .idle ∧
    ∀ p ∈ ([(⟨0x01, [.int 0, .int 0, .int 0]⟩, .setPixel 0 0 0), (⟨0x08, [.int 90]⟩, .setRotation 90)] :
        List (Request × Instr)),
      decode (.request p.1) = .ok p.2 ∧ 1 ≤ p.1.opsel.toNat ∧ p.1.opsel.toNat ≤ 8 ∧
        ({ s0 with requests := [⟨.host, p.1⟩] } : State).requests = ⟨.host, p.1⟩ :: [] := by
  simp [s0, decode, decodeRequest, operandDecoder, decodeSetPixel, decodeSetRotation, Instr.wf]
theorem test_hyp_ComponentOperationIsNoHostRequest_component (c : Caller) :
    let s (r : Request) : State := { s0 with requests := [⟨c, r⟩] }
    (decode (.request ⟨0x10, [.rat 0]⟩) = .ok (.blend 0) ∧ 0x10 ≤ (0x10 : Byte).toNat ∧
      (s ⟨0x10, [.rat 0]⟩).requests = ⟨c, ⟨0x10, [.rat 0]⟩⟩ :: []) ∧
    (decode (.request ⟨0x18, [.int 1, .bytes []]⟩) = .ok (.write true []) ∧ (0x18 : Byte).toNat ≤ 0x18 ∧
      (s ⟨0x18, [.int 1, .bytes []]⟩).requests = ⟨c, ⟨0x18, [.int 1, .bytes []]⟩⟩ :: []) :=
  ⟨⟨rfl, by decide, rfl⟩, rfl, by decide, rfl⟩
theorem test_hyp_StepRunsMicroprogram :
    (atStep 5).phase ≠ .idle ∧ (atStep 5).stepReg = microPosition .tres := by decide
theorem test_hyp_BlockOperationWhileRunningStops :
    isBlockOperation (.setBorder 4) = true ∧ (atStep 16).phase ≠ .idle := by decide
theorem test_hyp_WellFormedInstructionCompletes :
    s0.phase = .idle ∧ (Instr.blend24 (1/2)).wf = true ∧
      (∀ q, Instr.blend24 (1/2) = .blend24 q → allBytes (blendPalette q) = true) := by
  refine ⟨rfl, rfl, fun q h => ?_⟩
  cases h
  decide +kernel
theorem test_hyp_StepKeepsInvariant : s0.Inv ∧ step s0 = .next s0 := ⟨by decide, rfl⟩
/-- The invariant also holds in the middle of an UPDATE. -/
theorem test_hyp_StepKeepsInvariant_running :
    ({ atStep 16 with frame := solidFrame 134400 0x44 } : State).Inv := by
  refine ⟨rfl, rfl, ?_, ⟨rfl, rfl, rfl⟩, fun h => absurd h (by decide)⟩
  rw [State.SequencerOk, if_neg (by decide)]
  exact ⟨rfl, fun h => absurd h (by decide), fun _ => test_solidFrame_length 134400 0x44⟩
theorem test_hyp_TraceOnlyGrows : ∃ t, step (atStep 0) = .next t := ⟨_, rfl⟩
theorem test_hyp_OnlyWritersChangeBuffer :
    (∀ x y c, Instr.setBorder 4 ≠ .setPixel x y c) ∧ (∀ im q, Instr.setBorder 4 ≠ .setImage im q) ∧
      ∃ t, exec (.setBorder 4) s0 = .next t := ⟨by simp, by simp, _, rfl⟩
theorem test_hyp_OrientationRegistersHaveOneWriter :
    (∃ t, exec (.setHflip true) s0 = .next t) ∧ (∀ c, Instr.setHflip true ≠ .setBorder c) ∧
      (∀ b, Instr.setHflip true ≠ .setVflip b) ∧ (∀ d, Instr.setHflip true ≠ .setRotation d) ∧
      (∃ t, exec (.setBorder 4) s0 = .next t) ∧ (∀ b, Instr.setBorder 4 ≠ .setHflip b) :=
  ⟨⟨_, rfl⟩, by simp, by simp, by simp, ⟨_, rfl⟩, by simp⟩
theorem test_hyp_PureOperationsTouchNoPin :
    touchesPins (.pack [1, 2]) = false ∧ ∃ t, exec (.pack [1, 2]) s0 = .next t := ⟨rfl, _, rfl⟩
theorem test_hyp_SetPixelWritesOneCell :
    s0.phase = .idle ∧ s0.MemoryOk ∧ (0 : Int) ≤ 599 ∧ (599 : Int) < 600 ∧ (0 : Int) ≤ 447 ∧ (447 : Int) < 448 := by
  decide
theorem test_hyp_SetPixelOutsideIsOutOfBounds :
    s0.phase = .idle ∧ s0.SequencerOk ∧ ∀ p ∈ [((600 : Int), (0 : Int)), (0, 448), (-1, 0), (0, -1)],
      p.1 < 0 ∨ 600 ≤ p.1 ∨ p.2 < 0 ∨ 448 ≤ p.2 := by decide
theorem test_hyp_SetImageQuantisesRgb :
    s0.phase = .idle ∧ redBitmap.wf = true ∧ redBitmap.isPanelSize = true :=
  ⟨rfl, test_solid_wf _ _ _, by decide⟩
theorem test_hyp_SetImageMasksIndexed :
    s0.phase = .idle ∧ bigIndexed.wf = true ∧ bigIndexed.isPanelSize = true :=
  ⟨rfl, test_solid_wf _ _ _, by decide⟩
theorem test_hyp_SetImageWrongSizeChangesNothing :
    s0.phase = .idle ∧ s0.SequencerOk ∧ ∀ p ∈ [(601, 448), (600, 447), (448, 600), (0, 0)], p ≠ (600, 448) := by
  decide
theorem test_hyp_SetBorderStoresOrIgnores :
    s0.phase = .idle ∧ (∀ c ∈ [(0 : Int), 7], 0 ≤ c ∧ c ≤ 7) ∧ (∀ c ∈ [(-1 : Int), 8], ¬ (0 ≤ c ∧ c ≤ 7)) := by
  decide
theorem test_hyp_SetFlipsWriteOneFlag : s0.phase = .idle := rfl
theorem test_hyp_SetRotationStoresMultiplesOf90 :
    s0.phase = .idle ∧ s0.SequencerOk ∧ (∀ d ∈ [(0 : Int), -90, 720], d % 90 = 0) ∧
      (∀ d ∈ [(45 : Int), 89, -1], d % 90 ≠ 0) := by decide
theorem test_hyp_BlendReturnsBlendedTables : s0.phase = .idle := rfl
theorem test_hyp_BlendStaysInByteRange :
    ((0 : Rat) ≤ 0 ∧ (0 : Rat) ≤ 1) ∧ ((0 : Rat) ≤ 1 ∧ (1 : Rat) ≤ 1) := by norm_num
/-- V-PAL-12: both clauses occur. -/
theorem test_hyp_Blend24PacksChannels :
    s0.phase = .idle ∧ allBytes (blendPalette (3/2)) = true ∧ allBytes (blendPalette (-1/2)) = false := by
  decide +kernel
theorem test_hyp_QuantizePicksLowestNearest :
    s0.phase = .idle ∧ (redBitmap.wf = true ∧ redBitmap.isPanelSize = true ∧ (blendPalette 1).length = 8) ∧
      ¬ (redBitmap.wf = true ∧ redBitmap.isPanelSize = true ∧ ((blendPalette 1).take 7).length = 8) :=
  ⟨rfl, ⟨test_solid_wf _ _ _, by decide, rfl⟩, fun h => absurd h.2.2 (by decide)⟩
theorem test_hyp_RenderFollowsIndexMap :
    s0.phase = .idle ∧ (-90 : Int) % 90 = 0 ∧ (45 : Int) % 90 ≠ 0 ∧ 268799 < 268800 := by decide
theorem test_hyp_RenderIsPermutation :
    (∀ d ∈ [(0 : Int), -90, 270], d % 90 = 0) ∧ 268799 < 268800 ∧ s0.phase = .idle := by decide
theorem test_hyp_RenderLaws : 599 < 600 ∧ 447 < 448 := by decide
theorem test_hyp_PackPairsIndices :
    s0.phase = .idle ∧ s0.SequencerOk ∧ ([7, 7] : List Colour).length % 2 = 0 ∧
      ([7] : List Colour).length % 2 ≠ 0 := by decide
theorem test_hyp_PackRoundTrips : ([7, 0, 0, 7] : List Colour).length % 2 = 0 := by decide
theorem test_hyp_WriteSendsEvents : s0.phase = .idle ∧ s0.busGood := by decide
/-- V-XPT-5: the second transfer of 10000 bytes fails; and the first one of a single byte. -/
theorem test_hyp_WriteStopsAtFailedTransfer :
    let s : State := { s0 with bus := ⟨true, [true, false]⟩ }
    s.phase = .idle ∧ s.bus.next = List.replicate 1 true ++ false :: [] ∧
      ∃ c, (chunks (solidFrame 10000 0x5A))[1]? = some c :=
  ⟨rfl, rfl, _, List.getElem?_eq_getElem (by rw [chunks_length, numChunks_eq, test_solidFrame_length]; decide)⟩
theorem test_hyp_WriteStopsAtFailedTransfer_first :
    (cut s0).phase = .idle ∧ (cut s0).bus.next = List.replicate 0 true ++ false :: [] ∧
      (chunks [0x04])[0]? = some [0x04] := by decide
theorem test_hyp_SendCommandMakesTwoWrites : s0.phase = .idle ∧ s0.busGood := by decide
theorem test_hyp_FailedOpcodeSuppressesData : (cut s0).phase = .idle ∧ (cut s0).bus.look.1 = false := by decide
/-- The sixth transfer of a frame fails (V-DRV-9), and the only one of a byte. -/
theorem test_hyp_SendCommandStopsAtFailedDataTransfer :
    let s : State := { s0 with bus := ⟨true, List.replicate 6 true ++ [false]⟩ }
    s.phase = .idle ∧ s.bus.next = List.replicate (5 + 1) true ++ false :: [] ∧
      ∃ c, (chunks (solidFrame 134400 0x44))[5]? = some c :=
  ⟨rfl, rfl, _, List.getElem?_eq_getElem (by rw [chunks_length, numChunks_eq, test_solidFrame_length]; decide)⟩
theorem test_hyp_SendCommandStopsAtFailedDataTransfer_first :
    let s : State := { s0 with bus := ⟨true, [true, false]⟩ }
    s.phase = .idle ∧ s.bus.next = List.replicate (0 + 1) true ++ false :: [] ∧
      (chunks [0x3C])[0]? = some [0x3C] := by decide
theorem test_hyp_ReadyPinEndsWaitAtOnce : s0.phase = .idle ∧ s0.busyIn.look.1 = true := by decide
theorem test_hyp_WaitHasTwoOutcomes : s0.phase = .idle := rfl
theorem test_hyp_WaitFollowsPin :
    let s : State := { s0 with busyIn := ⟨false, [false, false, true]⟩ }
    (s.phase = .idle ∧ s.lag.always 0 ∧ s.busyIn.next = List.replicate 2 false ++ true :: [] ∧
      2 * config.pollInterval < 21) ∧ ((silent s0).phase = .idle ∧ (silent s0).pinStuck) := by decide
theorem test_hyp_WireCommandsSendAndAdvance (c : WireCommand) :
    (atStep (microPosition c)).phase ≠ .idle ∧ (atStep (microPosition c)).stepReg = microPosition c ∧
      (atStep (microPosition c)).busGood := by
  cases c <;> decide
theorem test_hyp_WireCommandOnIdleIsSendCommand : s0.phase = .idle := rfl
/-- V-DRV-10: the opcode transfer of PLL fails. -/
theorem test_hyp_FailedWireCommandAbandonsSequence :
    (cut (atStep 8)).phase ≠ .idle ∧ (cut (atStep 8)).stepReg = microPosition .pll ∧
      (cut (atStep 8)).bus.look.1 = false := by decide
/-- V-DRV-9: the sixth transfer of the frame fails. -/
theorem test_hyp_FailedWireCommandAbandonsSequence_data :
    let s : State := { atStep 16 with
      frame := solidFrame 134400 0x44, bus := ⟨true, List.replicate 6 true ++ [false]⟩ }
    s.phase ≠ .idle ∧ s.stepReg = microPosition .dtm1 ∧
      s.bus.next = List.replicate (5 + 1) true ++ false :: [] ∧
      ∃ chunk, (chunks (payload .dtm1 s))[5]? = some chunk := by
  refine ⟨by decide, rfl, rfl, _, List.getElem?_eq_getElem ?_⟩
  rw [chunks_length, numChunks_eq, show payload .dtm1 _ = solidFrame 134400 0x44 from rfl, test_solidFrame_length]
  decide
theorem test_hyp_FailedOperationLeavesBlockIdle :
    ∃ t, s0.phase = .idle ∧ exec (.setRotation 45) s0 = .next t ∧ t.result ≠ .ok :=
  ⟨_, rfl, rfl, by decide⟩
theorem test_hyp_TimeoutAbandonsSequence :
    ∀ n ∈ [(4 : Fin 25), 17, 19, 21, 23], (silent (atStep n)).phase ≠ .idle ∧ (silent (atStep n)).pinStuck ∧
      ((silent (atStep n)).stepReg = 4 ∨ (silent (atStep n)).stepReg = 17 ∨ (silent (atStep n)).stepReg = 19 ∨
        (silent (atStep n)).stepReg = 21 ∨ (silent (atStep n)).stepReg = 23) := by decide
theorem test_hyp_StepRegisterAdvancesOrEnds : (atStep 0).phase ≠ .idle ∧ ∃ t, step (atStep 0) = .next t :=
  ⟨by decide, _, rfl⟩
theorem test_hyp_SequenceIsItsMicroSteps :
    s0.phase = .idle ∧ s0.requests = [] ∧ (solidFrame 134400 0x44).length = 134400 :=
  ⟨rfl, rfl, test_solidFrame_length _ _⟩
theorem test_hyp_SequencesAlwaysEnd :
    s0.phase = .idle ∧ (Instr.setup = .setup ∨ Instr.setup = .showPanel ∨
      ∃ frame, Instr.setup = .update frame ∧ frame.length = 134400) := ⟨rfl, .inl rfl⟩
theorem test_hyp_SetupSendsConfiguration :
    s0.phase = .idle ∧ s0.SequencerOk ∧ s0.pinReady ∧ s0.busGood := by decide
theorem test_hyp_UpdateSendsFrame :
    s0.phase = .idle ∧ s0.SequencerOk ∧ s0.pinReady ∧ s0.busGood ∧
      (solidFrame 134400 0x44).length = 134400 ∧
      (solidFrame 134399 0x44).length ≠ 134400 :=
  ⟨rfl, by decide, by decide, by decide, test_solidFrame_length _ _,
    fun h => absurd ((test_solidFrame_length 134399 0x44).symm.trans h) (by decide)⟩
theorem test_hyp_ShowSendsRenderedFrame :
    s0.phase = .idle ∧ s0.SequencerOk ∧ s0.pinReady ∧ s0.busGood := by decide
theorem test_hyp_SilentPanelSendsNothing : (silent s0).phase = .idle ∧ (silent s0).pinStuck := by decide
/-- A SHOW right after reset, with a ready pin, reports OK; so does an UPDATE. -/
theorem test_hyp_OkMeansEverythingWasSent :
    (∃ t, s0.phase = .idle ∧ exec .showPanel s0 = .next t ∧ t.result = .ok) ∧
    ∃ t, s0.phase = .idle ∧ exec (.update (solidFrame frameBytes 0x44)) s0 = .next t ∧ t.result = .ok :=
  ⟨⟨_, rfl, exec_showPanel rfl, sequence_smooth_result _ (by decide) (by decide)⟩,
    ⟨_, rfl, (exec_update rfl _).trans (if_pos (test_solidFrame_length _ _)),
      sequence_smooth_result _ (by decide) (by decide)⟩⟩
theorem test_hyp_BytesSentArePrefix :
    s0.phase = .idle ∧ (solidFrame 134400 0x44).length = 134400 := ⟨rfl, test_solidFrame_length _ _⟩
theorem test_hyp_UpdateCommandList :
    s0.phase = .idle ∧ s0.pinReady ∧ s0.busGood ∧ (solidFrame 134400 0x44).length = 134400 :=
  ⟨rfl, by decide, by decide, test_solidFrame_length _ _⟩

end Sys2Proof.Tests
end

section
/-! The proofs of the memory family (20_memory.md): SET_PIXEL inside the buffer. -/

namespace Sys2Proof.Machine

/-- Row-major addressing with the panel's width written out (20_memory.md R61). -/
theorem cellAddr_eq (x y : Nat) : cellAddr x y = y * 600 + x := rfl

/-- Inside the buffer SET_PIXEL completes over the one memory write (41_framebuffer.md R150). -/
theorem exec_setPixel_of_inBounds {s : State} {x y : Int} (hs : s.phase = .idle)
    (hxy : inBounds x y = true) (colour : Int) :
    exec (.setPixel x y colour) s =
      .next (({ s with fb := s.fb.write (y.toNat * 600 + x.toNat) (maskColour colour) }
        : State).complete .none) := by
  rw [exec_setPixel hs, if_pos hxy, cellAddr_eq]

/-- Settles O15: SET_PIXEL is one memory write, and a write to canonical memory is read back at its own
address (there the masked colour is the colour modulo 8) and nowhere else. -/
theorem setPixelWritesOneCell : Obligations.SetPixelWritesOneCell := by
  intro x y colour s hs hm hx0 hx hy0 hy
  have hxy : inBounds x y = true := inBounds_iff.mpr ⟨hx0, hx, hy0, hy⟩
  refine ⟨_, exec_setPixel_of_inBounds hs hxy colour, rfl, ?_, fun a ha => ?_⟩
  · rw [State.complete_fb, Memory.read_write_self hm, maskColour_toNat]
  · rw [State.complete_fb, Memory.read_write_other hm ha]

end Sys2Proof.Machine
end

section
/-! The proofs of the encoding family (30_encoding.md): the CDI payload. -/

namespace Sys2Proof.Machine

/-- The payload byte is its two bit fields side by side: the shift of a three-bit colour by five leaves
the byte's low bits free and pushes no bit out (30_encoding.md R96). -/
theorem cdiByte_eq_append (border : Colour) : cdiByte border = border ++ (0x17 : BitVec 5) := by
  rw [BitVec.append_def, BitVec.shiftLeftZeroExtend_eq]
  rfl

/-- The low field does not reach the colour's bits, so the `|||` of the fields is their sum. -/
theorem cdiByte_toNat (border : Colour) : (cdiByte border).toNat = border.toNat * 32 + 0x17 := by
  calc (cdiByte border).toNat
      = border.toNat <<< 5 ||| 0x17 := by rw [cdiByte_eq_append, BitVec.toNat_append]; rfl
    _ = border.toNat <<< 5 + 0x17 := (Nat.shiftLeft_add_eq_or_of_lt (by decide) _).symm
    _ = border.toNat * 32 + 0x17 := by rw [Nat.shiftLeft_eq]

theorem cdiByte_borderField (border : Colour) : (cdiByte border).extractLsb' 5 3 = border := by
  rw [cdiByte_eq_append]
  exact BitVec.extractLsb'_append_eq_left

theorem cdiByte_lowField (border : Colour) : (cdiByte border).extractLsb' 0 5 = 0x17 := by
  rw [cdiByte_eq_append]
  exact BitVec.extractLsb'_append_eq_right

/-- Settles O42: the payload's one byte is the append of its two fields, so its value is their weighted
sum and each field reads back whole. -/
theorem cdiPayloadCarriesBorder : Obligations.CdiPayloadCarriesBorder := fun s =>
  ⟨cdiByte s.border, rfl, cdiByte_toNat s.border, cdiByte_borderField s.border, cdiByte_lowField s.border⟩

end Sys2Proof.Machine
end

section
/-! The proofs of the exceptions family (60_exceptions.md): SET_IMAGE with an image of another size. -/

namespace Sys2Proof.Machine

/-- The size check, with the panel's sizes written out (41_framebuffer.md R152). -/
theorem isPanelSize_iff {α : Type} {b : Bitmap α} :
    b.isPanelSize = true ↔ (b.width, b.height) = (600, 448) := by
  rw [Bitmap.isPanelSize, Bool.and_eq_true, decide_eq_true_eq, decide_eq_true_eq, Prod.mk.injEq]
  rfl

/-- On an Idle block the sequencer's registers already hold the values an error gives them, so an error
sets only the result and what it records (60_exceptions.md R266). -/
theorem raise_of_idle {s : State} (hs : s.phase = .idle) (hq : s.SequencerOk) (code : ResultCode)
    (info : Reply) : s.raise code info = { s with result := code, reply := info } := by
  rw [State.SequencerOk, if_pos hs] at hq
  obtain ⟨hstep, hlink, hframe⟩ := hq
  rw [State.raise, ← hs, ← hstep, ← hlink, ← hframe]

/-- The size check comes before the quantisation, the masking and the one write to the buffer. -/
theorem exec_setImage_of_wrongSize {s : State} (hs : s.phase = .idle) (hq : s.SequencerOk)
    {image : Image} (hi : ¬ isPanelSized image = true) (q : Rat) :
    exec (.setImage image q) s = .next { s with result := .sizeMismatch, reply := .none } := by
  rw [exec_setImage hs, Bool.eq_false_of_not_eq_true hi, Bool.not_false, if_pos rfl, raise_of_idle hs hq]

/-- Settles O19: the size check refuses either form of image, and the error it raises on an Idle block
sets only the result and the emptied reply. -/
theorem setImageWrongSizeChangesNothing : Obligations.SetImageWrongSizeChangesNothing :=
  ⟨fun b q _ hs hq hsize =>
      exec_setImage_of_wrongSize (image := .rgb b) hs hq (mt isPanelSize_iff.mp hsize) q,
    fun b q _ hs hq hsize =>
      exec_setImage_of_wrongSize (image := .indexed b) hs hq (mt isPanelSize_iff.mp hsize) q⟩

end Sys2Proof.Machine
end

section
/-! The encoding round trip (30_encoding.md R93, R107, R108). -/

namespace Sys2Proof

/-- A wire command is encoded as its opcode byte alone. -/
theorem encode_ofWire (c : WireCommand) : encode (Instr.ofWire c) = .wire c.opcode := by
  cases c <;> rfl

theorem decode_wire_opcode (c : WireCommand) : decode (.wire c.opcode) = .ok (Instr.ofWire c) := by
  rw [decode, wireCommandOf_opcode]

/-- Each selector's reader is the one its operation was written for, and each operand reader undoes its
writer. -/
theorem decode_encode_blockOperation {i : Instr} (hb : Machine.isBlockOperation i = true)
    (hwf : i.wf = true) : decode (encode i) = .ok i := by
  cases i with
  | setPixel x y colour => exact decode_of_operands rfl rfl rfl hwf
  | setImage image s => exact decode_of_operands rfl rfl rfl hwf
  | setBorder colour => exact decode_of_operands rfl rfl rfl hwf
  | showPanel => exact decode_of_operands rfl rfl rfl hwf
  | setup => exact decode_of_operands rfl rfl rfl hwf
  | setHflip b => exact decode_of_operands rfl rfl (by simp [decodeSetHflip]) hwf
  | setVflip b => exact decode_of_operands rfl rfl (by simp [decodeSetVflip]) hwf
  | setRotation deg => exact decode_of_operands rfl rfl rfl hwf
  | blend s => exact decode_of_operands rfl rfl rfl hwf
  | blend24 s => exact decode_of_operands rfl rfl rfl hwf
  | quantize image pal => exact decode_of_operands rfl rfl rfl hwf
  | render border hf vf rot => exact decode_of_operands rfl rfl (by simp [decodeRender]) hwf
  | pack v => exact decode_of_operands rfl rfl (by simp [decodePack]) hwf
  | update frame => exact decode_of_operands rfl rfl rfl hwf
  | sendCommand op data => exact decode_of_operands rfl rfl (by simp [decodeSendCommand]) hwf
  | awaitReady timeout => exact decode_of_operands rfl rfl (by simp [decodeAwaitReady]) hwf
  | write isData bytes => exact decode_of_operands rfl rfl (by simp [decodeWrite]) hwf
  | _ => simp [Machine.isBlockOperation] at hb

end Sys2Proof

namespace Sys2Proof.Machine

/-- Settles O1: a block operation comes back through its selector and operands, a wire command through its
opcode, which no other command has. -/
theorem decodeInvertsEncode : Obligations.DecodeInvertsEncode := by
  intro i hwf
  by_cases hb : isBlockOperation i = true
  · exact decode_encode_blockOperation hb hwf
  · obtain ⟨c, rfl⟩ := exists_ofWire (Bool.eq_false_of_not_eq_true hb)
    rw [encode_ofWire, decode_wire_opcode]

end Sys2Proof.Machine
end

section
/-! The invariant of the block is kept by every step (10_state.md, 45_transport.md R241). -/

namespace Sys2Proof.Machine

/-! ## Chip-select after an action of the bus -/

/-- An action that deasserts chip-select when it succeeds, and otherwise ends at a failed transfer, leaves
chip-select in order (45_transport.md R241, R247). -/
theorem chipSelectOk_of_result {r : Ended}
    (h : (r.2 = .ok ∧ r.1.csOut = config.csDeasserted) ∨
      (r.2 = .transportFailure ∧ lastTransferFailed false r.1.trace = true)) : r.1.ChipSelectOk := by
  obtain ⟨_, hcs⟩ | ⟨_, hfail⟩ := h
  · exact chipSelectOk_of_deasserted hcs
  · exact fun _ => hfail

theorem awaitReady_chipSelectOk (timeout : Duration) {s : State} (h : s.ChipSelectOk) :
    (s.awaitReady timeout).1.ChipSelectOk := by
  obtain ⟨-, hcs, -, -, -, hlast⟩ := awaitLoop_result timeout s.timer (maxSamples timeout) s
  intro ha
  exact (hlast false).trans (h (hcs.symm.trans ha))

/-! ## One instruction -/

/-- How an operation that touches pins ends on an Idle block: it is a whole sequence, or an action of pins
and bus whose result is reported. -/
inductive PinsEnd (s : State) : State → Prop where
  | sequence (inUpdate : Bool) (f : List Byte) (hf : inUpdate = true → f.length = frameBytes) :
      PinsEnd s (s.sequence inUpdate f)
  | settled {r : Ended} (hm : BusMove s r.1) (hc : s.ChipSelectOk → r.1.ChipSelectOk) : PinsEnd s (settle r)

theorem sendCommand_pinsEnd (op : Byte) (data : List Byte) (s : State) :
    PinsEnd s (settle (s.sendCommand op data)) :=
  .settled (sendCommand_busMove op data s) fun _ => chipSelectOk_of_result (sendCommand_result op data s)

/-- An operation that touches pins and answers on an Idle block ends in one of those ways. -/
theorem exec_pinsEnd {i : Instr} {s t : State} (hp : touchesPins i = true) (hs : s.phase = .idle)
    (he : exec i s = .next t) : PinsEnd s t := by
  by_cases hb : isBlockOperation i = true
  · cases i with
    | showPanel =>
      rw [exec_showPanel hs] at he
      obtain rfl := Host.Outcome.next.inj he
      exact .sequence _ _ fun _ => shownFrame_length s
    | setup =>
      rw [exec_setup hs] at he
      obtain rfl := Host.Outcome.next.inj he
      exact .sequence _ _ fun h => absurd h Bool.false_ne_true
    | update frame =>
      rw [exec_update hs] at he
      split_ifs at he with hlen
      obtain rfl := Host.Outcome.next.inj he
      exact .sequence _ _ fun _ => hlen
    | sendCommand op data =>
      rw [exec_sendCommand hs] at he
      obtain rfl := Host.Outcome.next.inj he
      exact sendCommand_pinsEnd op data s
    | awaitReady timeout =>
      rw [exec_awaitReady hs] at he
      obtain rfl := Host.Outcome.next.inj he
      exact .settled (awaitReady_busMove timeout s) (awaitReady_chipSelectOk timeout)
    | write isData bytes =>
      rw [exec_write hs] at he
      obtain rfl := Host.Outcome.next.inj he
      exact .settled (logicalWrite_busMove isData bytes s) fun _ =>
        chipSelectOk_of_result (logicalWrite_result isData bytes s)
    | setPixel | setImage | setBorder | setHflip | setVflip | setRotation | blend | blend24
    | quantize | render | pack => simp [touchesPins] at hp
    | _ => simp [isBlockOperation] at hb
  · obtain ⟨c, rfl⟩ := exists_ofWire (Bool.eq_false_of_not_eq_true hb)
    rw [exec_ofWire, State.runWire, if_pos hs] at he
    obtain rfl := Host.Outcome.next.inj he
    exact sendCommand_pinsEnd _ _ s

/-- Reporting a result leaves chip-select alone, and the sequencer registers too or cleared. -/
theorem settle_ok_of_busMove {s : State} {r : Ended} (h : BusMove s r.1) (hs : s.SequencerOk)
    (hc : r.1.ChipSelectOk) : (settle r).SequencerOk ∧ (settle r).ChipSelectOk := by
  have hr : r.1.SequencerOk := busMove_sequencerOk h hs
  unfold settle
  split_ifs
  · exact ⟨hr, hc⟩
  · exact ⟨idle_sequencerOk _ rfl rfl rfl rfl, hc⟩

theorem PinsEnd.ok {s t : State} (h : PinsEnd s t) (hs : s.SequencerOk) (hc : s.ChipSelectOk) :
    t.SequencerOk ∧ t.ChipSelectOk := by
  cases h with
  | sequence inUpdate f hf => exact sequence_ok inUpdate f s hf hc
  | settled hm hc' => exact settle_ok_of_busMove hm hs (hc' hc)

/-- What a sequence leaves alone is three of the invariant's five parts. -/
theorem SequenceMove.inv {s t : State} (h : SequenceMove s t) (hs : s.Inv) (hq : t.SequencerOk)
    (hc : t.ChipSelectOk) : t.Inv := by
  obtain ⟨hm, hr, -, hpins, -⟩ := hs
  exact ⟨by rw [State.MemoryOk, h.fb]; exact hm, by rw [State.RotationOk, h.rotation]; exact hr, hq,
    h.pins hpins, hc⟩

/-- An operation that touches no pin writes canonical memory or a multiple of 90, and an error clears the
sequencer registers. -/
theorem PureEnd.inv {i : Instr} {s t : State} (h : PureEnd i s t) (hs : s.Inv) : t.Inv := by
  obtain ⟨hm, hr, hq, hp, hc⟩ := hs
  cases h with
  | cells m hw _ => exact ⟨hw hm, hr, hq, hp, hc⟩
  | rotation d hd _ => exact ⟨hm, hd, hq, hp, hc⟩
  | error code info => exact ⟨hm, hr, idle_sequencerOk _ rfl rfl rfl rfl, hp, hc⟩
  | border | hflip | vflip | value => exact ⟨hm, hr, hq, hp, hc⟩

/-- Every block operation keeps the invariant. -/
theorem exec_blockOperation_inv {i : Instr} {s t : State} (hb : isBlockOperation i = true)
    (hs : s.Inv) (he : exec i s = .next t) : t.Inv := by
  cases hp : touchesPins i with
  | false => exact (exec_pureEnd hp he).2.inv hs
  | true =>
    have ⟨_, _, hq, _, hc⟩ := hs
    obtain ⟨hq', hc'⟩ := (exec_pinsEnd hp (idle_of_exec_next hb he) he).ok hq hc
    exact (exec_sequenceMove hp he).inv hs hq' hc'

theorem microAction_inv {s : State} (hp : s.phase ≠ .idle) (hs : s.Inv) :
    (s.microAction (microOp s.stepReg)).Inv := by
  have ⟨_, _, hq, _, hc⟩ := hs
  obtain ⟨hq', hc'⟩ := microAction_ok s hp hq hc
  exact (microAction_end _ s).sequenceMove.inv hs hq' hc'

/-- Settles O9: an empty buffer, no rotation, an Idle sequencer, and a TRACE without events. -/
theorem resetMeetsInvariant : Obligations.ResetMeetsInvariant :=
  ⟨rfl, rfl, ⟨rfl, rfl, rfl⟩, ⟨rfl, rfl, rfl⟩, chipSelectOk_of_deasserted rfl⟩

/-- Settles O10: a step is nothing, a block operation over the state with its request taken (which is no
part of the invariant), or a micro-step. -/
theorem stepKeepsInvariant : Obligations.StepKeepsInvariant := by
  intro s t hs h
  obtain ⟨-, -, rfl⟩ | ⟨q, rs, i, -, -, hd, -, he⟩ | ⟨hp, op, rfl, rfl⟩ := step_next_cases h
  · exact hs
  · exact exec_blockOperation_inv (decodeRequest_kind hd).1 (s := { s with requests := rs }) hs he
  · exact microAction_inv hp hs

end Sys2Proof.Machine
end

section
/-! What a step decodes and executes (30_encoding.md R93, R107; 20_memory.md R76; 43_protocol_driver.md
R201). -/

namespace Sys2Proof

/-! ## What the decoder refuses -/

/-- Outside the selector table of R107 no operand reader is selected. -/
theorem operandDecoder_eq_none {opsel : Byte} (hhost : ¬ (1 ≤ opsel.toNat ∧ opsel.toNat ≤ 8))
    (hcomp : ¬ (0x10 ≤ opsel.toNat ∧ opsel.toNat ≤ 0x18)) : operandDecoder opsel = none := by
  unfold operandDecoder
  split
  case h_18 => rfl
  all_goals omega

theorem decode_unknownOpsel {r : Request} (h : operandDecoder r.opsel = none) :
    decode (.request r) = .error (.unknownOpsel r.opsel) := by
  simp only [decode, decodeRequest, h]

/-- Operands that the selected reader does not take are refused by the selector's name. -/
theorem decode_badOperands {opsel : Byte} {ops : List Operand} {f : List Operand → Option Instr}
    (hf : operandDecoder opsel = some f) (hops : f ops = none) :
    decode (.request ⟨opsel, ops⟩) = .error (.badOperands opsel) := by
  simp only [decode, decodeRequest, hf, hops]

/-- Operands that are read as an instruction which is not well formed are refused by the selector's name. -/
theorem decode_illFormed {opsel : Byte} {ops : List Operand} {f : List Operand → Option Instr} {i : Instr}
    (hf : operandDecoder opsel = some f) (hops : f ops = some i) (hwf : i.wf = false) :
    decode (.request ⟨opsel, ops⟩) = .error (.illFormed opsel) := by
  simp [decode, decodeRequest, hf, hops, hwf]

theorem flagOf_eq_none {n : Int} (h0 : n ≠ 0) (h1 : n ≠ 1) : flagOf n = none := by
  rw [flagOf, if_neg h0, if_neg h1]

theorem flagOf_isSome {n : Int} (h : n = 0 ∨ n = 1) : ∃ b, flagOf n = some b := by
  obtain rfl | rfl := h
  · exact ⟨false, rfl⟩
  · exact ⟨true, rfl⟩

theorem colourOf_eq_none {n : Int} (h : n < 0 ∨ 7 < n) : colourOf n = none :=
  if_neg (by omega)

theorem colourOf_isSome {n : Int} (h : 0 ≤ n ∧ n ≤ 7) : ∃ c, colourOf n = some c :=
  ⟨_, if_pos (by omega)⟩

theorem byteOf_eq_none {n : Int} (h : n < 0 ∨ 255 < n) : byteOf n = none :=
  if_neg (by omega)

theorem durationOf_eq_none {n : Int} (h : n < 0) : durationOf n = none :=
  if_neg (by omega)

/-- One element that is no colour index spoils the sequence (93 U13). -/
theorem coloursOf_eq_none {n : Int} {v : List Int} (h : colourOf n = none) (hn : n ∈ v) :
    coloursOf v = none := by
  induction v with
  | nil => simp at hn
  | cons m v ih =>
    obtain rfl | hn := List.mem_cons.mp hn
    · simp only [coloursOf, h]
    · cases hm : colourOf m <;> simp [coloursOf, hm, ih hn]

/-- RENDER's reader takes no operands of which the border or a flag is not read. -/
theorem decodeRender_eq_none {border hf vf rot : Int}
    (h : colourOf border = none ∨ flagOf hf = none ∨ flagOf vf = none) :
    decodeRender [.int border, .int hf, .int vf, .int rot] = none := by
  unfold decodeRender
  obtain h | h | h := h
  · simp [h]
  · simp [h]
  · simp [h]

/-- A byte that is no command's opcode is no wire command (30_encoding.md R93, R101). -/
theorem wireCommandOf_eq_none {op : Byte} (h : ∀ c : WireCommand, op ≠ c.opcode) :
    wireCommandOf op = none :=
  (if_neg (h .tres)).trans <| (if_neg (h .psr)).trans <| (if_neg (h .pwr)).trans <|
  (if_neg (h .pll)).trans <| (if_neg (h .tse)).trans <| (if_neg (h .cdi)).trans <|
  (if_neg (h .tcon)).trans <| (if_neg (h .dam)).trans <| (if_neg (h .pws)).trans <|
  (if_neg (h .pfs)).trans <| (if_neg (h .dtm1)).trans <| (if_neg (h .pon)).trans <|
  (if_neg (h .drf)).trans <| if_neg (h .pof)

/-- The opcode table of R93, written out. -/
theorem opcode_mem_table (c : WireCommand) :
    c.opcode ∈ ([0x61, 0x00, 0x01, 0x30, 0x41, 0x50, 0x60, 0x65, 0xE3, 0x03, 0x10, 0x04, 0x12, 0x02] :
      List Byte) := by
  cases c <;> decide

theorem decode_unknownOpcode {op : Byte} (h : wireCommandOf op = none) :
    decode (.wire op) = .error (.unknownOpcode op) := by
  rw [decode, h]

end Sys2Proof

namespace Sys2Proof.Machine

/-- Settles O2, by evaluating the decoder on the thirteen words. -/
theorem knownWordsDecode : Obligations.KnownWordsDecode := by
  refine ⟨?_, ?_, ?_, ?_, ?_, ?_, ?_, ?_, ?_, ?_, ?_, ?_, ?_⟩ <;> rfl

/-! ## A step of an Idle block -/

theorem step_refuses_undecodable {s : State} {q : Call} {rs : List Call} {e : DecodeError}
    (hp : s.phase = .idle) (hr : s.requests = q :: rs) (hd : decode (.request q.request) = .error e) :
    step s = .refused (.undecodable e) := by
  rw [step_call hp hr, hd]

theorem step_executes {s : State} {q : Call} {rs : List Call} {i : Instr} (hp : s.phase = .idle)
    (hr : s.requests = q :: rs) (hd : decode (.request q.request) = .ok i)
    (hc : q.caller.mayRequest i = true) : step s = exec i { s with requests := rs } := by
  rw [step_call hp hr, hd]
  exact if_pos hc

theorem step_refuses_caller {s : State} {q : Call} {rs : List Call} {i : Instr} (hp : s.phase = .idle)
    (hr : s.requests = q :: rs) (hd : decode (.request q.request) = .ok i)
    (hc : q.caller.mayRequest i = false) : step s = .refused (.notHostCallable q.request.opsel) := by
  rw [step_call hp hr, hd]
  exact if_neg (by rw [hc]; exact Bool.false_ne_true)

theorem step_waits {s : State} (hp : s.phase = .idle) (hr : s.requests = []) : step s = .next s := by
  simp only [step, State.fetch, if_pos hp, hr]

/-- Settles O3: no operand reader is selected, and `step` passes the decoder's refusal on. -/
theorem unknownSelectorIsRefused : Obligations.UnknownSelectorIsRefused := by
  intro s q rs hhost hcomp hp hr
  have hd := decode_unknownOpsel (r := q.request) (operandDecoder_eq_none hhost hcomp)
  exact ⟨hd, step_refuses_undecodable hp hr hd⟩

/-- Settles O4: the two cases of a step of an Idle block that answers. -/
theorem stepExecutesDecodedRequest : Obligations.StepExecutesDecodedRequest :=
  ⟨fun _ _ _ _ hp hr hd hc => step_executes hp hr hd hc, fun _ hp hr => step_waits hp hr⟩

/-- Settles O59: what a request decodes to is host-callable exactly when its selector is at most 0x08. -/
theorem componentOperationIsNoHostRequest : Obligations.ComponentOperationIsNoHostRequest := by
  intro s r rs i hp hd
  have hk : hostCallable i = decide (r.opsel.toNat ≤ 8) := (decodeRequest_kind hd).2
  refine ⟨fun hr ho => step_executes hp hr hd ?_, fun hr ho => step_refuses_caller hp hr hd ?_,
    fun hr => step_executes hp hr hd (Caller.mayRequest_bench i)⟩
  · rw [Caller.mayRequest_host, hk]
    exact decide_eq_true ho.2
  · rw [Caller.mayRequest_host, hk]
    exact decide_eq_false (by omega)

/-- A RENDER whose operands are read and whose rotation is no multiple of 90 is ill formed. -/
theorem decode_render_illFormed {border hf vf rot : Int} (hb : 0 ≤ border ∧ border ≤ 7)
    (hh : hf = 0 ∨ hf = 1) (hv : vf = 0 ∨ vf = 1) (hrot : rot % 90 ≠ 0) :
    decode (.request ⟨0x13, [.int border, .int hf, .int vf, .int rot]⟩) = .error (.illFormed 0x13) := by
  obtain ⟨c, hc⟩ := colourOf_isSome hb
  obtain ⟨h, hh⟩ := flagOf_isSome hh
  obtain ⟨v, hv⟩ := flagOf_isSome hv
  exact decode_illFormed (i := .render c h v rot) rfl (by simp [decodeRender, hc, hh, hv])
    (decide_eq_false hrot)

/-- Settles O58: each clause names the operand reader that fails or the check of well-formedness that
does. -/
theorem illFormedEncodingsAreRefused : Obligations.IllFormedEncodingsAreRefused := by
  refine ⟨fun op h => decode_unknownOpcode (wireCommandOf_eq_none fun c hc => h (hc ▸ opcode_mem_table c)),
    fun b h0 h1 => ?_, fun n hn => ?_,
    fun n data hn => ?_, fun n hn => ?_, fun frame hl => ?_,
    fun border hf vf rot hb hh hv hrot => decode_render_illFormed hb hh hv hrot,
    fun s q rs e hp hr hd => step_refuses_undecodable hp hr hd⟩
  · have hb := flagOf_eq_none h0 h1
    exact ⟨decode_badOperands rfl (by simp [decodeSetHflip, hb]),
      decode_badOperands rfl (by simp [decodeSetVflip, hb]),
      fun bytes => decode_badOperands rfl (by simp [decodeWrite, hb]),
      fun border c rot => ⟨decode_badOperands rfl (decodeRender_eq_none (.inr (.inl hb))),
        decode_badOperands rfl (decodeRender_eq_none (.inr (.inr hb)))⟩⟩
  · have hc := colourOf_eq_none hn
    exact ⟨fun v hv => decode_badOperands rfl (by simp [decodePack, coloursOf_eq_none hc hv]),
      fun hf vf rot => decode_badOperands rfl (decodeRender_eq_none (.inl hc))⟩
  · exact decode_badOperands rfl (by simp [decodeSendCommand, byteOf_eq_none hn])
  · exact decode_badOperands rfl (by simp [decodeAwaitReady, durationOf_eq_none hn])
  · exact decode_illFormed (i := .update frame) rfl rfl (decide_eq_false hl)

/-! ## A step of a running sequence -/

/-- A running block executes the micro-step at STEP; at the position of a wire command that is the command's
instruction (43_protocol_driver.md R201). -/
theorem step_running {s : State} (hp : s.phase ≠ .idle) : step s = .next s.microStep := by
  simp only [step, State.fetch, if_neg hp, State.microStep]
  generalize microOp s.stepReg = op
  cases op with
  | send c => exact (exec_ofWire c s).trans (by rw [runWire_running hp, State.microAction])
  | driveReset | wait | await | endSetup | endUpdate => rfl

theorem exec_ofWire_at_position {c : WireCommand} {s : State} (hp : s.phase ≠ .idle)
    (hs : s.stepReg = microPosition c) : exec (Instr.ofWire c) s = .next s.microStep := by
  rw [exec_ofWire, runWire_running hp, State.microStep, hs, microOp_position, State.microAction]

/-- Settles O5: the micro-step at the position of a wire command is that command's instruction. -/
theorem stepRunsMicroprogram : Obligations.StepRunsMicroprogram :=
  ⟨fun _ hp => step_running hp,
    fun _ _ hp hs => (step_running hp).trans (exec_ofWire_at_position hp hs).symm⟩

/-! ## Where block operations run -/

/-- Every block operation asks first whether the block is Idle. -/
theorem exec_blockOperation_running {i : Instr} {s : State} (hb : isBlockOperation i = true)
    (hp : s.phase ≠ .idle) : exec i s = .fault .requestWhileRunning := by
  cases i with
  | setPixel | setImage | setBorder | showPanel | setup | setHflip | setVflip | setRotation | blend
  | blend24 | quantize | render | pack | update | sendCommand | awaitReady | write =>
    simp only [exec, execSetPixel, execSetImage, execSetBorder, execShow, execSetup, execSetHflip,
      execSetVflip, execSetRotation, execBlend, execBlend24, execQuantize, execRender, execPack,
      execUpdate, execSendCommand, execAwaitReady, execWrite, whenIdle_running _ hp]
  | _ => simp [isBlockOperation] at hb

/-- Settles O6: each block operation is guarded by `whenIdle`. -/
theorem blockOperationWhileRunningStops : Obligations.BlockOperationWhileRunningStops :=
  fun _ _ hb hp => exec_blockOperation_running hb hp

/-- Settles O7: on an Idle block only a check of an operand's shape or of BLEND24's channels refuses, and
the hypotheses say that each is passed. -/
theorem wellFormedInstructionCompletes : Obligations.WellFormedInstructionCompletes := by
  intro i s hs hwf hblend
  by_cases hb : isBlockOperation i = true
  · cases i with
    | setPixel x y c => rw [exec_setPixel hs]; split_ifs <;> exact ⟨_, rfl⟩
    | setImage im q =>
      have hw : im.wf = true := hwf
      rw [exec_setImage hs, if_pos hw]
      split_ifs <;> exact ⟨_, rfl⟩
    | setBorder c => exact ⟨_, exec_setBorder hs c⟩
    | showPanel => exact ⟨_, exec_showPanel hs⟩
    | setup => exact ⟨_, exec_setup hs⟩
    | setHflip b => exact ⟨_, exec_setHflip hs b⟩
    | setVflip b => exact ⟨_, exec_setVflip hs b⟩
    | setRotation d => rw [exec_setRotation hs]; split_ifs <;> exact ⟨_, rfl⟩
    | blend q => exact ⟨_, exec_blend hs q⟩
    | blend24 q => exact ⟨_, (exec_blend24 hs q).trans (if_pos (hblend q rfl))⟩
    | quantize b pal => exact ⟨_, (exec_quantize hs b pal).trans (if_pos hwf)⟩
    | render b hf vf rot =>
      exact ⟨_, (exec_render hs b hf vf rot).trans (if_pos (of_decide_eq_true hwf))⟩
    | pack v => rw [exec_pack hs]; split_ifs <;> exact ⟨_, rfl⟩
    | update frame => exact ⟨_, (exec_update hs frame).trans (if_pos (of_decide_eq_true hwf))⟩
    | sendCommand op data => exact ⟨_, exec_sendCommand hs op data⟩
    | awaitReady timeout => exact ⟨_, exec_awaitReady hs timeout⟩
    | write d bytes => exact ⟨_, exec_write hs d bytes⟩
    | _ => simp [isBlockOperation] at hb
  · obtain ⟨c, rfl⟩ := exists_ofWire (Bool.eq_false_of_not_eq_true hb)
    exact ⟨_, exec_ofWire c s⟩

end Sys2Proof.Machine
end

section
/-! What operations leave alone (10_state.md R23, R25 to R28, R42, R43; 43_protocol_driver.md R204). -/

namespace Sys2Proof.Machine

/-- Settles O8: an empty buffer reads BLACK everywhere, and each register is the field of the reset state. -/
theorem resetState : Obligations.ResetState :=
  ⟨fun _ _ _ _ => rfl, rfl, rfl, rfl, rfl, rfl, rfl, rfl, rfl, rfl, rfl, rfl, rfl⟩

/-- An operation that touches no pin produces no event. -/
theorem PureEnd.trace {i : Instr} {s t : State} (h : PureEnd i s t) : t.trace = s.trace := by
  cases h <;> rfl

theorem exec_trace_grows {i : Instr} {s t : State} (he : exec i s = .next t) :
    ∃ es, t.trace = s.trace ++ es := by
  cases hp : touchesPins i with
  | false => exact ⟨[], by rw [(exec_pureEnd hp he).2.trace, List.append_nil]⟩
  | true => exact (exec_sequenceMove hp he).trace

/-- Settles O11: an instruction and a micro-step each append events, and a waiting block none. -/
theorem traceOnlyGrows : Obligations.TraceOnlyGrows := by
  intro s t h
  obtain ⟨-, -, rfl⟩ | ⟨q, rs, i, -, -, -, -, he⟩ | ⟨hp, op, rfl, rfl⟩ := step_next_cases h
  · exact ⟨[], (List.append_nil _).symm⟩
  · exact exec_trace_grows (s := { s with requests := rs }) he
  · exact (microAction_end _ s).sequenceMove.trace

/-- Settles O12: SET_PIXEL and SET_IMAGE are the only operations that end with other cells. -/
theorem onlyWritersChangeBuffer : Obligations.OnlyWritersChangeBuffer := by
  intro i s t hpix him he
  cases hp : touchesPins i with
  | true => exact (exec_sequenceMove hp he).fb
  | false =>
    cases (exec_pureEnd hp he).2 with
    | cells m _ hi =>
      obtain ⟨x, y, c, rfl⟩ | ⟨im, q, rfl⟩ := hi
      · exact absurd rfl (hpix x y c)
      · exact absurd rfl (him im q)
    | border | hflip | vflip | rotation | value | error => rfl

/-- Settles O13: an operation that ends with another register is that register's one writer. -/
theorem orientationRegistersHaveOneWriter : Obligations.OrientationRegistersHaveOneWriter := by
  intro i s t he
  cases hp : touchesPins i with
  | true =>
    have hm := exec_sequenceMove hp he
    exact ⟨fun _ => hm.border, fun _ => hm.hflip, fun _ => hm.vflip, fun _ => hm.rotation⟩
  | false =>
    cases (exec_pureEnd hp he).2 with
    | border c hi =>
      obtain ⟨n, rfl⟩ := hi
      exact ⟨fun h => absurd rfl (h n), fun _ => rfl, fun _ => rfl, fun _ => rfl⟩
    | hflip b hi => exact ⟨fun _ => rfl, fun h => absurd hi (h b), fun _ => rfl, fun _ => rfl⟩
    | vflip b hi => exact ⟨fun _ => rfl, fun _ => rfl, fun h => absurd hi (h b), fun _ => rfl⟩
    | rotation d _ hi => exact ⟨fun _ => rfl, fun _ => rfl, fun _ => rfl, fun h => absurd hi (h d)⟩
    | cells | value | error => exact ⟨fun _ => rfl, fun _ => rfl, fun _ => rfl, fun _ => rfl⟩

/-- Settles O14: such an operation ends by completing on the Idle block or by an error, which makes it
Idle. -/
theorem pureOperationsTouchNoPin : Obligations.PureOperationsTouchNoPin := by
  intro i s t hp he
  obtain ⟨hi, hend⟩ := exec_pureEnd hp he
  cases hend with
  | error => exact ⟨rfl, rfl, rfl, rfl, rfl, rfl, rfl, rfl, rfl, rfl⟩
  | cells | border | hflip | vflip | rotation | value =>
    exact ⟨rfl, rfl, rfl, rfl, rfl, rfl, rfl, rfl, hi, rfl⟩

end Sys2Proof.Machine
end

section
/-! How a sequence goes on and how it ends (43_protocol_driver.md R201; 60_exceptions.md R266;
70_reset_and_hazards.md R302). -/

namespace Sys2Proof.Machine

/-- The sequencer registers after the end of a sequence, and the three results it can report
(70_reset_and_hazards.md R302). -/
def State.SequenceOver (t : State) : Prop :=
  t.phase = .idle ∧ t.stepReg = 0 ∧ t.inUpdate = false ∧
    (t.result = .ok ∨ t.result = .busyTimeout ∨ t.result = .transportFailure)

/-- `t` stands one position after `s`, in the phase of that position, in the same sequence. -/
def State.MovedOn (s t : State) : Prop :=
  t.stepReg.val = s.stepReg.val + 1 ∧ t.phase = phaseOf t.stepReg ∧ t.inUpdate = s.inUpdate ∧
    t.result = s.result

theorem finish_sequenceOver (u : State) : u.finish.SequenceOver := ⟨rfl, rfl, rfl, .inl rfl⟩

/-- A micro-step moves on by one position or ends the sequence (43_protocol_driver.md R201). -/
theorem MicroEnd.movedOn_or_over {s t : State} (h : MicroEnd s t) : s.MovedOn t ∨ t.SequenceOver := by
  cases h with
  | @advance u hu =>
    by_cases hn : u.stepReg.val + 1 < 25
    · left
      rw [advance_next hn]
      exact ⟨congrArg (·.val + 1) hu.stepReg, rfl, hu.inUpdate, hu.result⟩
    · right
      rw [advance_last (by omega)]
      exact finish_sequenceOver u
  | finish => exact .inr (finish_sequenceOver _)
  | busy => exact .inr ⟨rfl, rfl, rfl, .inr (.inl rfl)⟩
  | failed => exact .inr ⟨rfl, rfl, rfl, .inr (.inr rfl)⟩

/-- Settles O48: the four ways a micro-step can end, sorted by whether they move on. -/
theorem stepRegisterAdvancesOrEnds : Obligations.StepRegisterAdvancesOrEnds := by
  intro s t hp h
  obtain rfl := Host.Outcome.next.inj ((step_running hp).symm.trans h)
  exact (microStep_end s).movedOn_or_over

/-- A running sequence is over after as many micro-steps as it has positions left, for each micro-step that
does not end it uses one up. -/
theorem runSequence_over {n : Nat} {s : State} (hp : s.phase ≠ .idle) (hn : 25 ≤ s.stepReg.val + n) :
    (s.runSequence n).SequenceOver := by
  induction n generalizing s with
  | zero => exact absurd s.stepReg.isLt (by omega)
  | succ n ih =>
    rw [runSequence_succ hp]
    obtain ⟨hstep, hphase, -, -⟩ | hover := (microStep_end s).movedOn_or_over
    · exact ih (by rw [hphase]; exact phaseOf_ne_idle _) (by omega)
    · rw [runSequence_idle hover.1]
      exact hover

theorem sequence_over (inUpdate : Bool) (frame : List Byte) (s : State) :
    (s.sequence inUpdate frame).SequenceOver :=
  runSequence_over (by simp) (by simp)

/-- SETUP, SHOW and UPDATE each answer one whole sequence. -/
theorem exec_sequence_of_kind {i : Instr} {s : State} (hs : s.phase = .idle)
    (hi : i = .setup ∨ i = .showPanel ∨ ∃ frame, i = .update frame ∧ frame.length = 134400) :
    ∃ inUpdate frame, exec i s = .next (s.sequence inUpdate frame) := by
  obtain rfl | rfl | ⟨frame, rfl, hl⟩ := hi
  · exact ⟨_, _, exec_setup hs⟩
  · exact ⟨_, _, exec_showPanel hs⟩
  · exact ⟨_, _, (exec_update hs frame).trans (if_pos hl)⟩

/-- Settles O50: a run uses up a position with each micro-step, and touches no memory. -/
theorem sequencesAlwaysEnd : Obligations.SequencesAlwaysEnd := by
  intro i s hs hi
  obtain ⟨u, f, he⟩ := exec_sequence_of_kind hs hi
  obtain ⟨hphase, hstep, hupd, hres⟩ := sequence_over u f s
  have hm := sequence_sequenceMove u f s
  exact ⟨_, he, hphase, hstep, hupd, hres, hm.fb, hm.border, hm.hflip, hm.vflip, hm.rotation, hm.requests⟩

/-! ## Errors -/

/-- The sequencer registers of a block that is Idle again (60_exceptions.md R266). -/
def State.AtRest (t : State) : Prop := t.phase = .idle ∧ t.stepReg = 0 ∧ t.inUpdate = false

theorem State.SequenceOver.atRest {t : State} (h : t.SequenceOver) : t.AtRest := by
  obtain ⟨hphase, hstep, hupd, -⟩ := h
  exact ⟨hphase, hstep, hupd⟩

/-- An operation requested alone that reports an error has taken it. -/
theorem settle_atRest {r : Ended} (h : (settle r).result ≠ .ok) : (settle r).AtRest := by
  by_cases hr : r.2 = .ok
  · rw [settle_ok hr] at h
    exact absurd rfl h
  · rw [settle_error hr]
    exact ⟨rfl, rfl, rfl⟩

/-- An operation on pins and bus that reports an error leaves the block at rest. -/
theorem PinsEnd.atRest {s t : State} (h : PinsEnd s t) (hr : t.result ≠ .ok) : t.AtRest := by
  cases h with
  | sequence inUpdate f _ => exact (sequence_over inUpdate f s).atRest
  | settled _ _ => exact settle_atRest hr

/-- Settles O46: an operation that touches no pin either completes with OK or raises the error over the
unchanged state; any other leaves memory, registers and requests alone, and the block at rest. -/
theorem failedOperationLeavesBlockIdle : Obligations.FailedOperationLeavesBlockIdle := by
  intro i s t hs he hr
  cases hp : touchesPins i with
  | true =>
    obtain ⟨hphase, hstep, hupd⟩ := (exec_pinsEnd hp hs he).atRest hr
    have hm := exec_sequenceMove hp he
    exact ⟨hphase, hstep, hupd, hm.fb, hm.border, hm.hflip, hm.vflip, hm.rotation, hm.requests⟩
  | false =>
    cases (exec_pureEnd hp he).2 with
    | error => exact ⟨rfl, rfl, rfl, rfl, rfl, rfl, rfl, rfl, rfl⟩
    | cells | border | hflip | vflip | rotation | value => exact absurd rfl hr

/-! ## A sequence, one machine step at a time -/

theorem run_succ_of_next {M : Host.Core} {n : Nat} {s t : M.State} (h : M.step s = .next t) :
    M.run (n + 1) s = M.run n t := by
  rw [Host.Core.run, h]

/-- With no request waiting, a run of the machine is the run of its sequence, after which the block waits. -/
theorem run_eq_runSequence {n : Nat} {s : State} (hr : s.requests = []) :
    Host.Core.run Sys2Proof.core n s = .next (s.runSequence n) := by
  induction n generalizing s with
  | zero => rfl
  | succ n ih =>
    by_cases hp : s.phase = .idle
    · have hstays : s.runSequence (n + 1) = s.runSequence n := by
        rw [runSequence_idle hp, runSequence_idle hp]
      rw [hstays]
      exact (run_succ_of_next (M := Sys2Proof.core) (step_waits hp hr)).trans (ih hr)
    · rw [runSequence_succ hp]
      exact (run_succ_of_next (M := Sys2Proof.core) (step_running hp)).trans
        (ih ((microStep_end s).sequenceMove.requests.trans hr))

/-- Settles O49: with no request waiting, steps of the machine are the micro-steps of the run. -/
theorem sequenceIsItsMicroSteps : Obligations.SequenceIsItsMicroSteps := by
  intro s hs hr
  have hrun : ∀ u f, .next (s.sequence u f) = Host.Core.run Sys2Proof.core 25 (s.start u f) :=
    fun u f => (run_eq_runSequence (s := s.start u f) hr).symm
  exact ⟨(exec_setup hs).trans (hrun _ _),
    fun frame hl => ((exec_update hs frame).trans (if_pos hl)).trans (hrun _ _),
    (exec_showPanel hs).trans (hrun _ _)⟩

end Sys2Proof.Machine
end

section
/-! The Frame Buffer's writers (41_framebuffer.md R150 to R158). -/

namespace Sys2Proof.Machine

/-- Settles O16: the bounds are checked first, and the error sets only the result and the coordinates. -/
theorem setPixelOutsideIsOutOfBounds : Obligations.SetPixelOutsideIsOutOfBounds := by
  intro x y colour s hs hq hxy
  have hout : ¬ inBounds x y = true := by
    rw [inBounds_iff]
    omega
  rw [exec_setPixel hs, if_neg hout, raise_of_idle hs hq]

/-- An image of the panel's size replaces the whole buffer (41_framebuffer.md R152). -/
theorem exec_setImage_of_panelSize {s : State} (hs : s.phase = .idle) {image : Image}
    (hi : isPanelSized image = true) (hw : image.wf = true) (q : Rat) :
    exec (.setImage image q) s =
      .next (({ s with fb := Memory.ofCells 0 (imageIndices image q).flatten } : State).complete .none) := by
  rw [exec_setImage hs, hi, Bool.not_true, if_neg Bool.false_ne_true, if_pos hw]

/-- A buffer made of a list of cells reads back, at an element's place, that element. -/
theorem Memory.read_ofCells_of_getElem? {cells : List Colour} {n : Nat} {c : Colour}
    (h : cells[n]? = some c) : Memory.read (Memory.ofCells 0 cells) n = c := by
  rw [Memory.read_ofCells, List.getD_eq_getElem?_getD, h, Option.getD_some]

/-- Settles O17: the buffer is the flattened quantised image, so the cell of a pixel is its element. -/
theorem setImageQuantisesRgb : Obligations.SetImageQuantisesRgb := by
  intro b q s hs hw hb
  refine ⟨_, exec_setImage_of_panelSize hs (image := .rgb b) hb hw q, rfl, fun x y hx hy => ?_⟩
  obtain ⟨row, p, hrow, hp, hcell⟩ := bitmap_cell (nearest (blendPalette q)) hw hb hx hy
  exact ⟨row, p, hrow, hp, Memory.read_ofCells_of_getElem? hcell⟩

/-- Settles O18: the same with the mask, which takes a value modulo 8. -/
theorem setImageMasksIndexed : Obligations.SetImageMasksIndexed := by
  intro b q s hs hw hb
  refine ⟨_, exec_setImage_of_panelSize hs (image := .indexed b) hb hw q, rfl, fun x y hx hy => ?_⟩
  obtain ⟨row, v, hrow, hv, hcell⟩ := bitmap_cell maskColour hw hb hx hy
  refine ⟨row, v, hrow, hv, ?_⟩
  rw [← maskColour_toNat]
  exact congrArg (fun c : Colour => (c.toNat : Int)) (Memory.read_ofCells_of_getElem? hcell)

/-- Settles O20. -/
theorem setBorderStoresOrIgnores : Obligations.SetBorderStoresOrIgnores := by
  intro colour s hs
  refine ⟨_, exec_setBorder hs colour, ?_⟩
  by_cases hc : isNamedColour colour = true
  · have hrange := isNamedColour_iff.mp hc
    rw [if_pos hc]
    refine ⟨rfl, fun _ => ?_, fun h => absurd hrange h⟩
    rw [State.complete_border, maskColour_toNat]
    omega
  · rw [if_neg hc]
    exact ⟨rfl, fun h => absurd (isNamedColour_iff.mpr h) hc, fun _ => rfl⟩

/-- Settles O21: each is one field update and the completion. -/
theorem setFlipsWriteOneFlag : Obligations.SetFlipsWriteOneFlag :=
  fun b _ hs => ⟨exec_setHflip hs b, exec_setVflip hs b⟩

/-- Settles O22: the remainder decides between the write and the error. -/
theorem setRotationStoresMultiplesOf90 : Obligations.SetRotationStoresMultiplesOf90 := by
  intro deg s hs hq
  refine ⟨fun h => ?_, fun h => ?_⟩
  · rw [exec_setRotation hs, if_pos h, State.complete]
  · rw [exec_setRotation hs, if_neg h, raise_of_idle hs hq]

end Sys2Proof.Machine
end

section
/-! The Palette Engine (40_palette.md R132 to R135). -/

namespace Sys2Proof.Machine

theorem blendChannel_one (a b : Byte) : blendChannel a b 1 = a.toNat := by
  rw [blendChannel, sub_self, mul_zero, add_zero, mul_one, truncRat_nat]

theorem blendChannel_zero (a b : Byte) : blendChannel a b 0 = b.toNat := by
  rw [blendChannel, sub_zero, mul_zero, zero_add, mul_one, truncRat_nat]

/-- A channel on which the two tables agree is blended exactly into itself (40_palette.md R134 (d)). -/
theorem blendChannel_self (c : Byte) (q : Rat) : blendChannel c c q = c.toNat := by
  rw [blendChannel, ← mul_add, add_sub_cancel, mul_one, truncRat_nat]

/-- Entry 7 of a blend is white, whatever the tables and the saturation (40_palette.md R131). -/
theorem blend_get_last (sat desat : Vector Rgb 7) (q : Rat) :
    (blendTables sat desat q)[7]? = some whiteEntry := by
  rw [blendTables, List.getElem?_append_right (by simp)]
  simp

/-- Settles O24. -/
theorem blendLaws : Obligations.BlendLaws := by
  intro sat desat
  refine ⟨blend_get_last sat desat, fun i => ?_, fun i => ?_, blendChannel_self⟩
  · rw [blend_get]
    simp only [blendEntry, blendChannel_one]
  · rw [blend_get]
    simp only [blendEntry, blendChannel_zero]

/-- The flat form of a blend ends with the three channels of the white entry. -/
theorem flatten_blendTables_drop (sat desat : Vector Rgb 7) (q : Rat) :
    (flatten (blendTables sat desat q)).drop 21 = [255, 255, 255] := by
  rw [blendTables, flatten_append, List.drop_left' (by simp [flatten_length])]
  rfl

/-- Settles O23: the flat form lists, entry by entry, the channels of the blended tables. -/
theorem blendReturnsBlendedTables : Obligations.BlendReturnsBlendedTables := by
  intro q s hs
  refine ⟨_, exec_blend hs q, ?_, fun i => ?_, flatten_blendTables_drop _ _ q⟩
  · rw [flatten_length, blendPalette, blendTables_length]
  · exact flatten_get _ _ _ (blend_get config.palSat config.palDesat q i)

/-- Settles O25: the first seven entries are blends of two bytes, and white is made of bytes. -/
theorem blendStaysInByteRange : Obligations.BlendStaysInByteRange := by
  intro sat desat q h0 h1
  have hentry : ∀ a b : Rgb, (isByte (blendEntry a b q).r && isByte (blendEntry a b q).g &&
      isByte (blendEntry a b q).b) = true := by
    intro a b
    rw [Bool.and_eq_true, Bool.and_eq_true]
    exact ⟨⟨channel_byte _ _ q h0 h1, channel_byte _ _ q h0 h1⟩, channel_byte _ _ q h0 h1⟩
  rw [allBytes, List.all_eq_true]
  intro t ht
  obtain ht | ht := List.mem_append.mp ht
  · obtain ⟨i, -, rfl⟩ := List.mem_map.mp ht
    exact hentry _ _
  · obtain rfl := List.mem_singleton.mp ht
    rfl

/-- Settles O26: each entry is packed on its own, and its channels have eight bits each. -/
theorem blend24PacksChannels : Obligations.Blend24PacksChannels := by
  intro q s hs
  refine ⟨fun h => ⟨_, (exec_blend24 hs q).trans (if_pos h), ?_, fun i p hp => ?_⟩, fun h => ?_⟩
  · rw [List.length_map, blendPalette, blendTables_length]
  · refine ⟨packTriple p, by rw [List.getElem?_map, hp, Option.map_some], packTriple_toNat p ?_⟩
    exact List.all_eq_true.mp h p (List.mem_of_getElem? hp)
  · rw [exec_blend24 hs, h, if_neg Bool.false_ne_true]

/-- QUANTIZE's check of its operands' shapes (40_palette.md R135). -/
theorem quantizeShape_iff {b : Bitmap Rgb} {pal : List Triple} :
    (b.wf && b.isPanelSize && decide (pal.length = 8)) = true ↔
      b.wf = true ∧ b.isPanelSize = true ∧ pal.length = 8 := by
  rw [Bool.and_eq_true, Bool.and_eq_true, decide_eq_true_eq, and_assoc]

/-- Settles O27: the image is mapped pixel by pixel, and the scan of the palette keeps the lowest index of
least distance. -/
theorem quantizePicksLowestNearest : Obligations.QuantizePicksLowestNearest := by
  intro b pal s hs
  refine ⟨fun hw hb hl => ?_, fun h => ?_⟩
  · have hsize := Prod.mk.inj (isPanelSize_iff.mp hb)
    refine ⟨_, (exec_quantize hs b pal).trans (if_pos (quantizeShape_iff.mpr ⟨hw, hb, hl⟩)), hsize.1,
      hsize.2, fun x y hx hy => ?_⟩
    obtain ⟨row, p, hrow, hp, -⟩ := bitmap_cell (nearest pal) hw hb hx hy
    obtain ⟨best, hbest, hle, hlt⟩ := nearest_spec pal p hl
    exact ⟨row, p, row.map (nearest pal), nearest pal p, best, hrow, hp,
      by rw [quantizeRows, List.getElem?_map, hrow, Option.map_some],
      by rw [List.getElem?_map, hp, Option.map_some], hbest, hle, hlt⟩
  · rw [exec_quantize hs, if_neg (mt quantizeShape_iff.mp h)]

end Sys2Proof.Machine
end

section
/-! RENDER as a permutation of the cells (41_framebuffer.md R160 to R162). -/

namespace Sys2Proof.Machine

/-- A coordinate mirrored in `0..last`, or left as it is. -/
def mirrored (m : Bool) (last x : Nat) : Nat := if m then last - x else x

theorem mirrored_le (m : Bool) {last x : Nat} (hx : x ≤ last) : mirrored m last x ≤ last := by
  cases m
  · exact hx
  · exact Nat.sub_le last x

theorem mirrored_mirrored (m : Bool) {last x : Nat} (hx : x ≤ last) :
    mirrored m last (mirrored m last x) = x := by
  cases m
  · rfl
  · exact Nat.sub_sub_self hx

/-- The cell that output index `n` shows after `k` quarter turns, before the mirrors. -/
def turnedCell (k n : Nat) : Nat × Nat :=
  match k with
  | 0 => (n % 600, n / 600)
  | 1 => (599 - n / 448, n % 448)
  | 2 => (599 - n % 600, 447 - n / 600)
  | _ => (n / 448, 447 - n % 448)

/-- The output index that shows a cell after `k` quarter turns. -/
def turnedIndex (k x y : Nat) : Nat :=
  match k with
  | 0 => y * 600 + x
  | 1 => (599 - x) * 448 + y
  | 2 => (447 - y) * 600 + (599 - x)
  | _ => x * 448 + (447 - y)

theorem turnedCell_le (k : Nat) {n : Nat} (hn : n < 268800) :
    (turnedCell k n).1 ≤ 599 ∧ (turnedCell k n).2 ≤ 447 := by
  match k with
  | 0 | 1 | 2 | k + 3 =>
    simp only [turnedCell]
    omega

theorem turnedIndex_lt (k : Nat) {x y : Nat} (hx : x ≤ 599) (hy : y ≤ 447) : turnedIndex k x y < 268800 := by
  match k with
  | 0 | 1 | 2 | k + 3 =>
    simp only [turnedIndex]
    omega

theorem turnedIndex_turnedCell (k : Nat) {n : Nat} (hn : n < 268800) :
    turnedIndex k (turnedCell k n).1 (turnedCell k n).2 = n := by
  match k with
  | 0 | 1 | 2 | k + 3 =>
    simp only [turnedIndex, turnedCell]
    omega

theorem turnedCell_turnedIndex (k : Nat) {x y : Nat} (hx : x ≤ 599) (hy : y ≤ 447) :
    turnedCell k (turnedIndex k x y) = (x, y) := by
  match k with
  | 0 | 1 | 2 | k + 3 =>
    simp only [turnedIndex, turnedCell, Prod.mk.injEq]
    omega

/-- The index map of RENDER turns first and mirrors then. -/
theorem sourceCell_eq (hf vf : Bool) {k : Nat} (hk : k < 4) (n : Nat) :
    sourceCell hf vf k n =
      (mirrored hf 599 (turnedCell k n).1, mirrored vf 447 (turnedCell k n).2) := by
  match k, hk with
  | 0, _ | 1, _ | 2, _ | 3, _ => rfl

/-- The address of the cell that output index `n` shows. -/
def sourceAddr (hf vf : Bool) (k n : Nat) : Nat := (sourceCell hf vf k n).2 * 600 + (sourceCell hf vf k n).1

/-- The output index that shows the cell at an address: the mirrors undone, then the turns. -/
def outputIndex (hf vf : Bool) (k a : Nat) : Nat :=
  turnedIndex k (mirrored hf 599 (a % 600)) (mirrored vf 447 (a / 600))

theorem sourceCell_le (hf vf : Bool) {k n : Nat} (hk : k < 4) (hn : n < 268800) :
    (sourceCell hf vf k n).1 ≤ 599 ∧ (sourceCell hf vf k n).2 ≤ 447 := by
  rw [sourceCell_eq hf vf hk]
  obtain ⟨hx, hy⟩ := turnedCell_le k hn
  exact ⟨mirrored_le hf hx, mirrored_le vf hy⟩

theorem sourceAddr_lt (hf vf : Bool) {k n : Nat} (hk : k < 4) (hn : n < 268800) :
    sourceAddr hf vf k n < 268800 := by
  obtain ⟨hx, hy⟩ := sourceCell_le hf vf hk hn
  unfold sourceAddr
  omega

theorem outputIndex_lt (hf vf : Bool) (k : Nat) {a : Nat} (ha : a < 268800) :
    outputIndex hf vf k a < 268800 :=
  turnedIndex_lt k (mirrored_le hf (by omega)) (mirrored_le vf (by omega))

theorem outputIndex_sourceAddr (hf vf : Bool) {k n : Nat} (hk : k < 4) (hn : n < 268800) :
    outputIndex hf vf k (sourceAddr hf vf k n) = n := by
  obtain ⟨hx, hy⟩ := sourceCell_le hf vf hk hn
  have hmod : sourceAddr hf vf k n % 600 = (sourceCell hf vf k n).1 := by unfold sourceAddr; omega
  have hdiv : sourceAddr hf vf k n / 600 = (sourceCell hf vf k n).2 := by unfold sourceAddr; omega
  obtain ⟨hx, hy⟩ := turnedCell_le k hn
  rw [outputIndex, hmod, hdiv, sourceCell_eq hf vf hk, mirrored_mirrored hf hx, mirrored_mirrored vf hy,
    turnedIndex_turnedCell k hn]

theorem sourceAddr_outputIndex (hf vf : Bool) {k a : Nat} (hk : k < 4) (ha : a < 268800) :
    sourceAddr hf vf k (outputIndex hf vf k a) = a := by
  have hx : a % 600 ≤ 599 := by omega
  have hy : a / 600 ≤ 447 := by omega
  rw [sourceAddr, sourceCell_eq hf vf hk, outputIndex,
    turnedCell_turnedIndex k (mirrored_le hf hx) (mirrored_le vf hy), mirrored_mirrored hf hx,
    mirrored_mirrored vf hy]
  exact Nat.div_add_mod' a 600

theorem renderSequence_length (m : Memory) (hf vf : Bool) (k : Nat) :
    (renderSequence m hf vf k).length = 268800 := by
  rw [renderSequence, List.length_map, List.length_range, numPixels]

/-- RENDER of a multiple of 90 answers the rendered sequence, whatever the border operand. -/
theorem exec_render_of_multiple {s : State} (hs : s.phase = .idle) {rot : Int} (hrot : rot % 90 = 0)
    (border : Colour) (hf vf : Bool) :
    exec (.render border hf vf rot) s =
      .next { s with result := .ok, reply := .indices (renderSequence s.fb hf vf (quarterTurns rot)) } := by
  rw [exec_render hs, if_pos hrot, State.complete]

/-- Settles O28: the composed transforms read the cell of the index map. -/
theorem renderFollowsIndexMap : Obligations.RenderFollowsIndexMap := by
  intro border hf vf rot s hs
  refine ⟨fun hrot => ⟨_, exec_render_of_multiple hs hrot border hf vf, renderSequence_length _ _ _ _,
    fun n hn => render_get _ _ _ _ n (quarterTurns_lt rot) hn⟩, fun hrot => ?_⟩
  rw [exec_render hs, if_neg hrot]

/-- Settles O29: the index map and `outputIndex` undo each other. -/
theorem renderIsPermutation : Obligations.RenderIsPermutation := by
  intro hf vf rot hrot
  have hk := quarterTurns_lt rot
  refine ⟨sourceAddr hf vf (quarterTurns rot), fun n hn => sourceAddr_lt hf vf hk hn, fun a ha => ?_,
    fun border s hs => ⟨_, exec_render_of_multiple hs hrot border hf vf, renderSequence_length _ _ _ _,
      fun n hn => render_get _ _ _ _ n hk hn⟩⟩
  refine ⟨outputIndex hf vf (quarterTurns rot) a, outputIndex_lt hf vf _ ha,
    sourceAddr_outputIndex hf vf hk ha, ?_⟩
  rintro n hn rfl
  exact (outputIndex_sourceAddr hf vf hk hn).symm

/-- Both mirrors and then a half turn show every cell at its own place. -/
theorem sourceCell_mirrors_halfTurn {n : Nat} (hn : n < 268800) :
    sourceCell true true 2 n = sourceCell false false 0 n := by
  rw [sourceCell_eq true true (by decide), sourceCell_eq false false (by decide)]
  simp only [turnedCell, mirrored, if_true, Bool.false_eq_true, if_false, Prod.mk.injEq]
  omega

/-- Settles O30: both laws are equalities of source cells. -/
theorem renderLaws : Obligations.RenderLaws := by
  intro m
  refine ⟨fun x y hx hy => ?_, List.map_congr_left fun n hn => ?_⟩
  · have hcell : sourceCell false false 0 (y * 600 + x) = (x, y) :=
      (sourceCell_eq false false (by decide) _).trans
        (turnedCell_turnedIndex 0 (Nat.le_of_lt_succ hx) (Nat.le_of_lt_succ hy))
    rw [render_get m false false 0 _ (by decide) (by omega), hcell]
  · rw [sourceCell_turned m true true 2 n (by decide), sourceCell_turned m false false 0 n (by decide),
      sourceCell_mirrors_halfTurn (List.mem_range.mp hn)]

end Sys2Proof.Machine
end

section
/-! The Bit Packer (42_packer.md R180 to R182) and the frame SHOW sends (30_encoding.md R103). -/

namespace Sys2Proof.Machine

/-- Settles O31: the even and the odd length are the two branches of PACK. -/
theorem packPairsIndices : Obligations.PackPairsIndices := by
  intro v s hs hq
  refine ⟨fun h => ⟨_, (exec_pack hs v).trans (if_pos h), packIndices_length v, fun i a b ha hb => ?_⟩,
    fun h => ?_⟩
  · exact ⟨packPair a b, packIndices_get v i a b ha hb, packPair_toNat a b⟩
  · rw [exec_pack hs, if_neg h, raise_of_idle hs hq]

/-- Settles O32: the nibbles of a packed pair are its two indices. -/
theorem packRoundTrips : Obligations.PackRoundTrips := by
  intro v hv
  induction v using packIndices.induct with
  | case1 a b v ih =>
    obtain ⟨ha, hb⟩ := packPair_nibbles a b
    have hv' : v.length % 2 = 0 := by
      simp only [List.length_cons] at hv
      omega
    simp only [packIndices, unpackBytes, List.map_cons, ha, hb, ih hv']
  | case2 v h =>
    match v, h with
    | [], _ => rfl
    | [a], _ => simp at hv
    | a :: b :: v, h => exact absurd rfl (h a b v)

/-- Every byte PACK makes is a pair of indices. -/
theorem exists_packPair_of_mem {v : List Colour} {x : Byte} (h : x ∈ packIndices v) :
    ∃ a b, x = packPair a b := by
  induction v using packIndices.induct with
  | case1 a b v ih =>
    obtain rfl | h := List.mem_cons.mp h
    · exact ⟨a, b, rfl⟩
    · exact ih h
  | case2 v hv =>
    match v, hv with
    | [], _ => simp [packIndices] at h
    | [a], _ => simp [packIndices] at h
    | a :: b :: v, hv => exact absurd rfl (hv a b v)

/-- Settles O33: every byte of the frame is a packed pair of three-bit indices. -/
theorem shownFrameShape : Obligations.ShownFrameShape := by
  refine fun s => ⟨shownFrame_length s, fun x hx => ?_⟩
  obtain ⟨a, b, rfl⟩ := exists_packPair_of_mem hx
  exact packPair_bits a b

end Sys2Proof.Machine
end

section
/-! The transport: how a write is cut, and how WRITE ends (45_transport.md R240 to R247). -/

namespace Sys2Proof.Machine

theorem chunks_flatten (bytes : List Byte) : (chunks bytes).flatten = bytes := by
  have hn : bytes.length ≤ numChunks bytes.length * 4096 := by
    rw [numChunks_eq]
    omega
  exact (chunks_flatten_aux bytes (numChunks bytes.length)).trans (List.take_of_length_le hn)

theorem chunk_size {bytes c : List Byte} {k : Nat} (h : (chunks bytes)[k]? = some c) :
    c.length = min 4096 (bytes.length - k * 4096) := by
  obtain ⟨-, rfl⟩ := chunks_get bytes k c h
  rw [List.length_take, List.length_drop]

/-- Settles O34: chunk `k` starts at byte `k * 4096`, and only the last chunk can end the write. -/
theorem chunksCoverBytesInOrder : Obligations.ChunksCoverBytesInOrder := by
  intro bytes
  have hlen : (chunks bytes).length = (bytes.length + 4095) / 4096 := by
    rw [chunks_length, numChunks_eq]
  refine ⟨chunks_flatten bytes, hlen, fun k c h => ?_⟩
  have hsize := chunk_size h
  have hk : k < numChunks bytes.length := (chunks_get bytes k c h).1
  rw [numChunks_eq] at hk
  rw [hlen]
  omega

/-- Settles O35: the write's own rule for transfers that succeed, reported as OK. -/
theorem writeSendsEvents : Obligations.WriteSendsEvents := by
  intro isData bytes s hs hg
  rw [exec_write hs, logicalWrite_ok isData bytes hg, settle_ok rfl]
  simp only [State.complete, writeEvents, List.append_assoc]

/-- Settles O36: the write's own rule for a transfer that fails, reported as an error. -/
theorem writeStopsAtFailedTransfer : Obligations.WriteStopsAtFailedTransfer := by
  intro isData bytes s k c rest hs hb hc
  refine ⟨_, exec_write hs isData bytes, ?_⟩
  rw [logicalWrite_fail isData bytes s k c rest hb hc, settle_error (by simp)]
  exact ⟨rfl, rfl, rfl, rfl, rfl, rfl, rfl⟩

end Sys2Proof.Machine
end

section
/-! The driver's primitives: SEND_COMMAND and AWAIT_READY (43_protocol_driver.md R190 to R194). -/

namespace Sys2Proof.Machine

/-- The events of a command's opcode write. -/
theorem writeEvents_opcode (op : Byte) : writeEvents false [op] =
    [.cs config.csAsserted, .dc config.commandLevel, .xfer [op], .cs config.csDeasserted] := by
  rw [writeEvents, chunks_singleton]
  rfl

/-- The events of a command sent whole: its opcode write, and its data write if it has data
(43_protocol_driver.md R194). -/
theorem commandEvents_eq (op : Byte) (data : List Byte) : commandEvents op data =
    ([.cs config.csAsserted, .dc config.commandLevel, .xfer [op], .cs config.csDeasserted] : List Event) ++
      (if data = [] then ([] : List Event) else
        ([.cs config.csAsserted, .dc config.dataLevel] : List Event) ++ (chunks data).map Event.xfer ++
          ([.cs config.csDeasserted] : List Event)) := by
  rw [commandEvents, writeEvents_opcode]
  rfl

/-- Settles O37: a command's events are its opcode write's and its data write's. -/
theorem sendCommandMakesTwoWrites : Obligations.SendCommandMakesTwoWrites := by
  intro op data s hs hg
  rw [exec_sendCommand hs, sendCommand_ok op data hg, settle_ok rfl]
  simp only [State.complete, commandDc, commandTransfers, commandEvents_eq, List.append_assoc]

/-- Settles O38: the opcode write's error passes up before the data write. -/
theorem failedOpcodeSuppressesData : Obligations.FailedOpcodeSuppressesData := by
  intro op data s hs hb
  refine ⟨_, exec_sendCommand hs op data, ?_⟩
  rw [sendCommand_fail op data s hb, settle_error (by simp)]
  exact ⟨rfl, rfl, rfl⟩

/-- Settles O60: the data write's error passes up, and is reported as the command's. -/
theorem sendCommandStopsAtFailedDataTransfer : Obligations.SendCommandStopsAtFailedDataTransfer := by
  intro op data s k c rest hs hb hc
  rw [exec_sendCommand hs, sendCommand_dataFail op data s k c rest hb hc, settle_error (by simp)]
  rfl

/-- Settles O39: the first round of the poll loop ends it. -/
theorem readyPinEndsWaitAtOnce : Obligations.ReadyPinEndsWaitAtOnce := by
  intro timeout s hs hpin
  rw [exec_awaitReady hs, awaitReady_at_once timeout hpin, settle_ok rfl, State.sample, State.complete, hpin]

/-- An operation requested alone reports how it ended. -/
theorem settle_result (r : Ended) : (settle r).result = r.2 := by
  by_cases hr : r.2 = .ok
  · rw [settle_ok hr, hr, State.complete_result]
  · rw [settle_error hr, State.raise_result]

theorem settle_trace (r : Ended) : (settle r).trace = r.1.trace := by
  unfold settle
  split_ifs <;> rfl

theorem settle_busyIn (r : Ended) : (settle r).busyIn = r.1.busyIn := by
  unfold settle
  split_ifs <;> rfl

theorem settle_timer (r : Ended) : (settle r).timer = r.1.timer := by
  unfold settle
  split_ifs <;> rfl

/-- Completing and failing move no pin. -/
theorem settle_pins (r : Ended) : (settle r).csOut = r.1.csOut ∧ (settle r).dcOut = r.1.dcOut ∧
    (settle r).resetOut = r.1.resetOut := by
  unfold settle
  split_ifs
  · exact ⟨rfl, rfl, rfl⟩
  · exact ⟨rfl, rfl, rfl⟩

/-- An operation requested alone on an Idle block leaves it Idle. -/
theorem settle_phase {s : State} {r : Ended} (h : BusMove s r.1) (hs : s.phase = .idle) :
    (settle r).phase = .idle := by
  unfold settle
  split_ifs
  · exact h.phase.trans hs
  · rfl

/-- Settles O40: the wait's own two outcomes, reported. -/
theorem waitHasTwoOutcomes : Obligations.WaitHasTwoOutcomes := by
  intro timeout s hs
  have hm := awaitReady_busMove timeout s
  obtain ⟨hcs, hdc, hrst⟩ := await_frame timeout s
  obtain ⟨hcs', hdc', hrst'⟩ := settle_pins (s.awaitReady timeout)
  obtain ⟨m, htrace, hend⟩ := await_spec timeout s
  refine ⟨_, m, exec_awaitReady hs timeout, (settle_sequenceMove hm).fb, settle_phase hm hs,
    hcs'.trans hcs, hdc'.trans hdc, hrst'.trans hrst, ?_⟩
  rw [settle_result, settle_trace, settle_timer, htrace]
  obtain ⟨hok, hlt⟩ | ⟨hbusy, hpos, hle, htime⟩ := hend
  · exact .inl ⟨hok, by rw [if_pos hok], hlt⟩
  · exact .inr ⟨hbusy, by simp [hbusy], hpos, hle, htime⟩

/-- Settles O41: fewer sleeps than reach the timeout are fewer than the bound on the samples. -/
theorem waitFollowsPin : Obligations.WaitFollowsPin := by
  refine ⟨fun timeout s m rest hs hlag hpin hm => ?_, fun timeout s hs hpin => ?_⟩
  · have hlt : m < maxSamples timeout :=
      Nat.lt_of_mul_lt_mul_right (hm.trans_le (maxSamples_bound timeout))
    obtain ⟨hok, htrace, hrest⟩ := awaitLoop_answer timeout s.timer m (maxSamples timeout) s rest hlag
      (le_refl _) hpin (by rwa [Nat.sub_self, Nat.zero_add]) hlt
    exact ⟨_, exec_awaitReady hs timeout, (settle_result _).trans hok, (settle_trace _).trans htrace,
      (congrArg Input.next (settle_busyIn _)).trans hrest⟩
  · exact ⟨_, exec_awaitReady hs timeout, (settle_result _).trans (awaitLoop_stuck _ _ _ _ hpin)⟩

end Sys2Proof.Machine
end

section
/-! The wire commands and the waits of a running sequence (43_protocol_driver.md R201, R203;
44_wire_commands.md; 60_exceptions.md R262, R263). -/

namespace Sys2Proof.Machine

/-- No wire command stands at the last position. -/
theorem microPosition_lt (c : WireCommand) : (microPosition c).val + 1 < 25 := by
  cases c <;> decide

theorem microPosition_succ (c : WireCommand) :
    (⟨(microPosition c).val + 1, microPosition_lt c⟩ : Fin 25) = microPosition c + 1 := by
  cases c <;> rfl

/-- From the position of a wire command `advance` goes to the next one. -/
theorem advance_from_position {c : WireCommand} {s : State} (h : s.stepReg = microPosition c) :
    s.advance = { s with stepReg := microPosition c + 1, phase := phaseOf (microPosition c + 1) } := by
  have hval : s.stepReg.val + 1 < 25 := by
    rw [h]
    exact microPosition_lt c
  rw [advance_next hval]
  simp only [h, microPosition_succ]

/-- A wire command of a running sequence is its send and what follows from how the send ended. -/
theorem exec_ofWire_running {c : WireCommand} {s : State} (hp : s.phase ≠ .idle) :
    exec (Instr.ofWire c) s = .next (settleMicro (s.sendCommand c.opcode (payload c s))) := by
  rw [exec_ofWire, runWire_running hp, State.sendWire]

/-- Settles O43: the send succeeds, and `advance` goes from the command's position to the next. -/
theorem wireCommandsSendAndAdvance : Obligations.WireCommandsSendAndAdvance := by
  intro c s hp hs hg
  rw [exec_ofWire_running hp, sendCommand_ok _ _ hg, settleMicro_ok rfl]
  refine congrArg Host.Outcome.next ((advance_from_position (c := c) ?_).trans rfl)
  exact hs

/-- Settles O44: `runWire` on an Idle block is SEND_COMMAND's settled send. -/
theorem wireCommandOnIdleIsSendCommand : Obligations.WireCommandOnIdleIsSendCommand := by
  intro c s hs
  rw [exec_ofWire, exec_sendCommand hs, State.runWire, if_pos hs, State.sendWire]

/-- Settles O45: the failure of the send is raised, which clears the sequencer registers. -/
theorem failedWireCommandAbandonsSequence : Obligations.FailedWireCommandAbandonsSequence := by
  intro c s hp _
  refine ⟨fun hb => ?_, fun k chunk rest hb hc => ?_⟩
  · rw [exec_ofWire_running hp, sendCommand_fail _ _ s hb, settleMicro_error (by simp)]
    rfl
  · rw [exec_ofWire_running hp, sendCommand_dataFail _ _ s k chunk rest hb hc, settleMicro_error (by simp)]
    rfl

/-- Settles O47: the wait raises BusyTimeout over a state in which only inputs, time and TRACE moved. -/
theorem timeoutAbandonsSequence : Obligations.TimeoutAbandonsSequence := by
  intro s hp hpin hpos
  obtain ⟨m, hact, htrace, -⟩ := microAction_stuck hpin hpos
  obtain ⟨hcs, hdc, hrst⟩ := await_frame config.busyTimeout s
  exact ⟨_, m, (step_running hp).trans (congrArg _ hact), rfl, rfl, rfl, rfl, htrace, hcs, hdc, hrst,
    (awaitReady_busMove _ s).fb⟩

end Sys2Proof.Machine
end

section
/-! SETUP, UPDATE and SHOW with a ready panel (43_protocol_driver.md R196, R200 to R204; 95 V-DRV-1,
V-DRV-3). -/

namespace Sys2Proof.Machine

/-! ## The events of the microprogram -/

/-- The events of an action that ends with OK, a wait after `m` samples of 0. -/
def passedEvents (border : Colour) (f : List Byte) (m : Nat) : MicroOp → List Event
  | .await => pollPairs m ++ [.poll true]
  | op => opEvents border f op

/-- The events of the first `n` positions, each wait after as many samples of 0 as `w` says. -/
def passedTo (border : Colour) (f : List Byte) (w : Nat → Nat) : Nat → List Event
  | 0 => []
  | n + 1 => passedTo border f w n ++
      if h : n < 25 then passedEvents border f (w n) (microOp ⟨n, h⟩) else []

/-- SETUP's positions, written out (43_protocol_driver.md R200). -/
theorem passedTo_setup (border : Colour) (f : List Byte) (w : Nat → Nat) :
    passedTo border f w 15 =
      resetPulse ++ pollPairs (w 4) ++ [Event.poll true] ++ configEvents border := by
  have h15 : passedTo border f w 15 = [Event.rst false] ++ [Event.delay config.tResetLow] ++
      [Event.rst true] ++ [Event.delay config.tResetHigh] ++ (pollPairs (w 4) ++ [Event.poll true]) ++
      commandEvents config.opTres [0x02, 0x58, 0x01, 0xC0] ++ commandEvents config.opPsr config.plPsr ++
      commandEvents config.opPwr config.plPwr ++ commandEvents config.opPll config.plPll ++
      commandEvents config.opTse config.plTse ++ commandEvents config.opCdi [cdiByte border] ++
      commandEvents config.opTcon config.plTcon ++ commandEvents config.opDam config.plDam ++
      commandEvents config.opPws config.plPws ++ commandEvents config.opPfs config.plPfs := rfl
  rw [h15, configEvents, resetPulse, cdiByte]
  simp only [List.append_assoc, List.cons_append, List.nil_append]

/-- UPDATE's positions, written out (43_protocol_driver.md R200). -/
theorem passedTo_update (border : Colour) (f : List Byte) (w : Nat → Nat) :
    passedTo border f w 24 = resetPulse ++ pollPairs (w 4) ++ [Event.poll true] ++
      configEvents border ++ commandEvents config.opDtm1 f ++ pollPairs (w 17) ++ [Event.poll true] ++
      commandEvents config.opPon [] ++ pollPairs (w 19) ++ [Event.poll true] ++
      commandEvents config.opDrf [] ++ pollPairs (w 21) ++ [Event.poll true] ++
      commandEvents config.opPof [] ++ pollPairs (w 23) ++ [Event.poll true] := by
  have h24 : passedTo border f w 24 = passedTo border f w 15 ++ [] ++ commandEvents config.opDtm1 f ++
      (pollPairs (w 17) ++ [Event.poll true]) ++ commandEvents config.opPon [] ++
      (pollPairs (w 19) ++ [Event.poll true]) ++ commandEvents config.opDrf [] ++
      (pollPairs (w 21) ++ [Event.poll true]) ++ commandEvents config.opPof [] ++
      (pollPairs (w 23) ++ [Event.poll true]) := rfl
  rw [h24, passedTo_setup]
  simp only [List.append_assoc, List.nil_append]

/-- With a ready pin no wait takes a sample of 0. -/
theorem eventsTo_eq_passedTo (border : Colour) (f : List Byte) (n : Nat) :
    eventsTo border f n = passedTo border f (fun _ => 0) n := by
  have hop : ∀ op, opEvents border f op = passedEvents border f 0 op := by
    intro op
    cases op <;> rfl
  induction n with
  | zero => rfl
  | succ n ih => simp only [eventsTo, passedTo, ih, hop]

theorem eventsTo_setup (border : Colour) (f : List Byte) : eventsTo border f 15 = setupEvents border := by
  rw [eventsTo_eq_passedTo, passedTo_setup, pollPairs, List.append_nil, setupEvents]

theorem eventsTo_update (border : Colour) (f : List Byte) : eventsTo border f 24 = updateEvents border f := by
  rw [eventsTo_eq_passedTo, passedTo_update, updateEvents, setupEvents]
  simp only [pollPairs, List.append_nil]

/-- The pins after SETUP's events: PFS, the last command, has data. -/
theorem setupEvents_levels (border : Colour) (a : Bool) :
    resetLevel a (setupEvents border) = true ∧ dcLevel a (setupEvents border) = config.dataLevel ∧
      csLevel a (setupEvents border) = config.csDeasserted := by
  have hpfs : commandDc config.plPfs = config.dataLevel := rfl
  simp only [setupEvents, configEvents, resetLevel_append, dcLevel_append, csLevel_append,
    resetLevel_command, dcLevel_command, csLevel_command, hpfs]
  exact ⟨rfl, trivial, trivial⟩

/-- The pins after UPDATE's events: POF, the last command, has no data. -/
theorem updateEvents_levels (border : Colour) (f : List Byte) (a : Bool) :
    resetLevel a (updateEvents border f) = true ∧ dcLevel a (updateEvents border f) = config.commandLevel ∧
      csLevel a (updateEvents border f) = config.csDeasserted := by
  simp only [updateEvents, resetLevel_append, dcLevel_append, csLevel_append, resetLevel_command,
    dcLevel_command, csLevel_command, (setupEvents_levels border a).1]
  exact ⟨rfl, rfl, rfl⟩

/-! ## The state after the end -/

/-- A run without obstacle from an Idle block ends with the pins as its events drove them, its inputs and
time used, and nothing else changed. -/
theorem Smooth.finish_eq {s t : State} {n tm : Nat} {u : Bool} {f : List Byte} {es : List Event}
    (h : Smooth s n u f es tm t) (hs : s.phase = .idle) (hq : s.SequencerOk) :
    t.finish = { s with
      resetOut := resetLevel s.resetOut es, dcOut := dcLevel s.dcOut es, csOut := csLevel s.csOut es
      busyIn := t.busyIn, bus := t.bus, lag := t.lag, timer := t.timer
      result := .ok, reply := .none, trace := s.trace ++ es } := by
  rw [State.SequencerOk, if_pos hs] at hq
  obtain ⟨hstep, hlink, hframe⟩ := hq
  rw [State.finish, h.fb, h.border, h.hflip, h.vflip, h.rotation, h.requests, h.trace, h.rst, h.dc, h.cs,
    hs, hstep, hlink, hframe]

/-- The whole of a SETUP that meets no obstacle: position 15 is reached and ends the lone SETUP. -/
theorem sequence_smooth_setup {s : State} (hb : s.busGood) (hp : s.pinReady) :
    ∃ t, Smooth s 15 false [] (setupEvents s.border) (timeTo 15) t ∧ s.sequence false [] = t.finish := by
  obtain ⟨t, ht, hr⟩ := smooth_reach s false [] hb hp 15 (by decide) (by simp)
  rw [eventsTo_setup] at ht
  have hstep : t.microStep = t.finish := by
    rw [State.microStep, ht.step]
    exact if_neg (by rw [ht.upd]; exact Bool.false_ne_true)
  refine ⟨t, ht, hr.trans ?_⟩
  rw [runSequence_succ (by rw [ht.phase]; exact phaseOf_ne_idle _), hstep, runSequence_idle rfl]

/-- Settles O51: the run passes positions 0 to 14 and ends at 15. -/
theorem setupSendsConfiguration : Obligations.SetupSendsConfiguration := by
  intro s hs hq hp hb
  obtain ⟨t, ht, hfin⟩ := sequence_smooth_setup hb hp
  obtain ⟨hrst, -, -⟩ := setupEvents_levels s.border s.resetOut
  obtain ⟨-, hdc, -⟩ := setupEvents_levels s.border s.dcOut
  obtain ⟨-, -, hcs⟩ := setupEvents_levels s.border s.csOut
  have heq := ht.finish_eq hs hq
  rw [hrst, hdc, hcs] at heq
  exact ⟨_, (exec_setup hs).trans (congrArg _ hfin), ht.timer, heq⟩

/-- What UPDATE and SHOW leave when nothing stands in their way. -/
theorem sequence_update_ready (f : List Byte) {s : State} (hs : s.phase = .idle) (hq : s.SequencerOk)
    (hp : s.pinReady) (hb : s.busGood) :
    ∃ t, s.sequence true f = t ∧
      t = { s with
        resetOut := true, dcOut := config.commandLevel, csOut := config.csDeasserted
        busyIn := t.busyIn, bus := t.bus, lag := t.lag, timer := t.timer
        result := .ok, reply := .none
        trace := s.trace ++ updateEvents s.border f } := by
  obtain ⟨t, ht, hfin⟩ := sequence_smooth f hb hp
  rw [eventsTo_update] at ht
  obtain ⟨hrst, -, -⟩ := updateEvents_levels s.border f s.resetOut
  obtain ⟨-, hdc, -⟩ := updateEvents_levels s.border f s.dcOut
  obtain ⟨-, -, hcs⟩ := updateEvents_levels s.border f s.csOut
  have heq := ht.finish_eq hs hq
  rw [hrst, hdc, hcs] at heq
  exact ⟨_, hfin, heq⟩

/-- Settles O52: the run passes positions 0 to 23 and ends at 24; the length is checked first. -/
theorem updateSendsFrame : Obligations.UpdateSendsFrame := by
  intro f s hs hq hp hb
  refine ⟨fun hl => ?_, fun hl => (exec_update hs f).trans (if_neg hl)⟩
  obtain ⟨t, hseq, heq⟩ := sequence_update_ready f hs hq hp hb
  exact ⟨t, ((exec_update hs f).trans (if_pos hl)).trans (congrArg _ hseq), heq⟩

/-- Settles O53: SHOW is the run of UPDATE with the frame it renders. -/
theorem showSendsRenderedFrame : Obligations.ShowSendsRenderedFrame := by
  intro s hs hq hp hb
  obtain ⟨t, hseq, heq⟩ := sequence_update_ready s.shownFrame hs hq hp hb
  exact ⟨t, (exec_showPanel hs).trans (congrArg _ hseq), heq⟩

end Sys2Proof.Machine
end

section
/-! The byte stream and the command list of an UPDATE (30_encoding.md R90, R91; 45_transport.md R243). -/

namespace Sys2Proof.Machine

/-- Transfers put their bytes on the wire in order, at the level DC_OUT has. -/
theorem byteStream_xfers (b : Bool) (cs : List (List Byte)) :
    byteStream b (cs.map .xfer) = cs.flatten.map fun x => (b, x) := by
  induction cs with
  | nil => rfl
  | cons c cs ih => simp [byteStream, ih]

/-- A logical write puts its bytes on the wire at its level, however it is cut. -/
theorem byteStream_writeEvents (b isData : Bool) (bytes : List Byte) :
    byteStream b (writeEvents isData bytes) =
      bytes.map fun x => (if isData then config.dataLevel else config.commandLevel, x) := by
  simp [writeEvents, byteStream, byteStream_xfers, chunks_flatten]

/-- A command sent whole is its opcode at command level and its data at data level. -/
theorem byteStream_commandEvents (b : Bool) (op : Byte) (data : List Byte) :
    byteStream b (commandEvents op data) =
      (config.commandLevel, op) :: data.map fun x => (config.dataLevel, x) := by
  by_cases hd : data = []
  · simp [commandEvents, byteStream_writeEvents, hd]
  · simp [commandEvents, byteStream_writeEvents, hd]

/-- The byte stream of a list of commands. -/
def commandBytes : List (Byte × List Byte) → List (Bool × Byte)
  | [] => []
  | (op, data) :: cs =>
    (config.commandLevel, op) :: data.map (fun x => (config.dataLevel, x)) ++ commandBytes cs

theorem dataLevel_ne_commandLevel : config.dataLevel ≠ config.commandLevel := by decide

/-- Data bytes alone begin no command. -/
theorem cutCommands_data (data : List Byte) (rest : List (Bool × Byte)) :
    cutCommands config.commandLevel (data.map (fun x => (config.dataLevel, x)) ++ rest) =
      cutCommands config.commandLevel rest := by
  induction data with
  | nil => rfl
  | cons x data ih =>
    rw [List.map_cons, List.cons_append, cutCommands, if_neg dataLevel_ne_commandLevel, ih]

/-- The data of a command reaches up to the next opcode. -/
theorem takeWhile_data (data : List Byte) (cs : List (Byte × List Byte)) :
    (data.map (fun x => (config.dataLevel, x)) ++ commandBytes cs).takeWhile
        (fun p => decide (p.1 ≠ config.commandLevel)) =
      data.map fun x => (config.dataLevel, x) := by
  induction data with
  | nil =>
    match cs with
    | [] => rfl
    | (op, data) :: cs => simp [commandBytes]
  | cons x data ih => simpa [dataLevel_ne_commandLevel] using ih

/-- Cutting the byte stream of a list of commands gives the list back (30_encoding.md R91). -/
theorem cutCommands_commandBytes (cs : List (Byte × List Byte)) :
    cutCommands config.commandLevel (commandBytes cs) = cs := by
  induction cs with
  | nil => rfl
  | cons c cs ih =>
    obtain ⟨op, data⟩ := c
    rw [commandBytes, List.cons_append, cutCommands, if_pos rfl, takeWhile_data, cutCommands_data, ih,
      List.map_map]
    simp

/-- The fourteen commands of an UPDATE with their payloads (30_encoding.md R93). -/
def updateCommands (border : Colour) (f : List Byte) : List (Byte × List Byte) :=
  [(config.opTres, [0x02, 0x58, 0x01, 0xC0]), (config.opPsr, config.plPsr),
   (config.opPwr, config.plPwr), (config.opPll, config.plPll), (config.opTse, config.plTse),
   (config.opCdi, [(border.setWidth 8 <<< 5) ||| 0x17]), (config.opTcon, config.plTcon),
   (config.opDam, config.plDam), (config.opPws, config.plPws), (config.opPfs, config.plPfs),
   (config.opDtm1, f), (config.opPon, []), (config.opDrf, []), (config.opPof, [])]

theorem byteStream_updateEvents (b : Bool) (border : Colour) (f : List Byte) :
    byteStream b (updateEvents border f) = commandBytes (updateCommands border f) := by
  simp only [updateEvents, setupEvents, configEvents, resetPulse, updateCommands, commandBytes,
    byteStream_append, byteStream_commandEvents, byteStream, List.append_assoc, List.nil_append,
    List.append_nil]

/-- Settles O57: the byte stream is that of the fourteen commands, and cutting it gives them back. -/
theorem updateCommandList : Obligations.UpdateCommandList := by
  intro f s hs hp hb hl
  obtain ⟨t, ht, hfin⟩ := sequence_smooth f hb hp
  rw [eventsTo_update] at ht
  refine ⟨_, _, ((exec_update hs f).trans (if_pos hl)).trans (congrArg _ hfin), ht.trace, fun b => ?_⟩
  rw [byteStream_updateEvents, cutCommands_commandBytes, updateCommands]

end Sys2Proof.Machine
end

section
/-! What reaches the wire when transfers may fail: never more than the first bytes of what was to be sent
(45_transport.md R246, R247; 43_protocol_driver.md R194). -/

namespace Sys2Proof.Machine

/-- `t` comes from `s` by events whose bytes are the first ones of those of `plan`, or all of them. -/
def SentUpTo (plan : List Event) (s t : State) : Prop :=
  ∃ es, t.trace = s.trace ++ es ∧ ∀ b, byteStream b es <+: byteStream b plan

theorem xferAll_sentUpTo (cs : List (List Byte)) (s : State) :
    SentUpTo (cs.map .xfer) s (State.xferAll cs s).1 := by
  induction cs generalizing s with
  | nil => exact ⟨[], (List.append_nil _).symm, fun b => List.prefix_rfl⟩
  | cons c cs ih =>
    rw [State.xferAll]
    cases hl : s.bus.look.1 with
    | false =>
      rw [xfer_fail hl, andThen_error _ (by simp)]
      exact ⟨[.xfail c], rfl, fun b => List.nil_prefix⟩
    | true =>
      rw [xfer_ok hl, andThen_ok]
      obtain ⟨es, htrace, hbytes⟩ := ih { s with bus := s.bus.look.2, trace := s.trace ++ [.xfer c] }
      refine ⟨.xfer c :: es, by rw [htrace, List.append_assoc, List.singleton_append], fun b => ?_⟩
      exact (List.prefix_append_right_inj _).mpr (hbytes b)

theorem logicalWrite_sentUpTo (isData : Bool) (bytes : List Byte) (s : State) :
    SentUpTo (writeEvents isData bytes) s (s.logicalWrite isData bytes).1 := by
  by_cases hok : (s.logicalWrite isData bytes).2 = .ok
  · exact ⟨_, write_okTrace _ _ _ hok, fun b => List.prefix_rfl⟩
  · rw [State.logicalWrite] at hok ⊢
    generalize hl : (if isData then config.dataLevel else config.commandLevel) = level at hok ⊢
    obtain ⟨es, htrace, hbytes⟩ :=
      xferAll_sentUpTo (chunks bytes) ((s.driveCs config.csAsserted).driveDc level)
    obtain ⟨-, hstop⟩ | ⟨-, hgo⟩ := andThen_cases
      (State.xferAll (chunks bytes) ((s.driveCs config.csAsserted).driveDc level))
      fun s => (s.driveCs config.csDeasserted, .ok)
    · rw [hstop, writeEvents, hl]
      refine ⟨.cs config.csAsserted :: .dc level :: es, by rw [htrace]; simp, fun b => ?_⟩
      simpa [byteStream] using hbytes level
    · exact absurd (congrArg Prod.snd hgo) hok

theorem sendCommand_sentUpTo (op : Byte) (data : List Byte) (s : State) :
    SentUpTo (commandEvents op data) s (s.sendCommand op data).1 := by
  by_cases hok : (s.sendCommand op data).2 = .ok
  · exact ⟨_, send_okTrace _ _ _ hok, fun b => List.prefix_rfl⟩
  · rw [State.sendCommand] at hok ⊢
    obtain ⟨-, hstop⟩ | ⟨hw, hgo⟩ := andThen_cases (s.logicalWrite false [op])
      fun s => if data = [] then (s, .ok) else s.logicalWrite true data
    · obtain ⟨es, htrace, hbytes⟩ := logicalWrite_sentUpTo false [op] s
      rw [hstop, commandEvents]
      refine ⟨es, htrace, fun b => (hbytes b).trans ?_⟩
      rw [byteStream_append]
      exact List.prefix_append _ _
    · rw [hgo] at hok ⊢
      by_cases hd : data = []
      · exact absurd (congrArg Prod.snd (if_pos hd)) hok
      · obtain ⟨es, htrace, hbytes⟩ := logicalWrite_sentUpTo true data (s.logicalWrite false [op]).1
        rw [if_neg hd, commandEvents, if_neg hd]
        refine ⟨writeEvents false [op] ++ es, ?_, fun b => ?_⟩
        · rw [htrace, write_okTrace _ _ _ hw, List.append_assoc]
        · rw [byteStream_append, byteStream_append]
          exact (List.prefix_append_right_inj _).mpr (hbytes _)

end Sys2Proof.Machine
end

section
/-! An UPDATE in any environment: how far it got, and what it has done by then (43_protocol_driver.md R200
to R203; 70_reset_and_hazards.md R306). -/

namespace Sys2Proof.Machine

variable {border : Colour} {f : List Byte}

/-- The first `n` positions do not depend on how long the later waits take. -/
theorem passedTo_congr {w w' : Nat → Nat} {n : Nat} (h : ∀ k < n, w k = w' k) :
    passedTo border f w n = passedTo border f w' n := by
  induction n with
  | zero => rfl
  | succ n ih =>
    rw [passedTo, passedTo, ih fun k hk => h k (by omega), h n (by omega)]

/-- One more position passed. -/
theorem passedTo_snoc (w : Nat → Nat) {n : Nat} (hn : n < 25) (m : Nat) :
    ∃ w', passedTo border f w n ++ passedEvents border f m (microOp ⟨n, hn⟩) =
      passedTo border f w' (n + 1) := by
  refine ⟨Function.update w n m, ?_⟩
  rw [passedTo, dif_pos hn, Function.update_self,
    passedTo_congr fun k hk => (Function.update_of_ne (Nat.ne_of_lt hk) m w).symm]

/-! ## The bytes of the positions passed -/

theorem byteStream_pollPairs (b : Bool) (m : Nat) : byteStream b (pollPairs m) = [] := by
  induction m with
  | zero => rfl
  | succ m ih => exact ih

/-- The bytes of an action do not depend on the level before it: a command sets its own. -/
theorem byteStream_opEvents (b b' : Bool) (op : MicroOp) :
    byteStream b (opEvents border f op) = byteStream b' (opEvents border f op) := by
  cases op with
  | send c => exact (byteStream_commandEvents _ _ _).trans (byteStream_commandEvents _ _ _).symm
  | driveReset | wait | await | endSetup | endUpdate => rfl

theorem passedEvents_eq_opEvents {m : Nat} {op : MicroOp} (h : op ≠ .await) :
    passedEvents border f m op = opEvents border f op := by
  cases op with
  | await => exact absurd rfl h
  | driveReset | wait | send | endSetup | endUpdate => rfl

theorem byteStream_passedEvents (b b' : Bool) (m : Nat) (op : MicroOp) :
    byteStream b (passedEvents border f m op) = byteStream b' (opEvents border f op) := by
  by_cases h : op = .await
  · rw [h, passedEvents, byteStream_append, byteStream_pollPairs]
    rfl
  · rw [passedEvents_eq_opEvents h]
    exact byteStream_opEvents b b' op

/-- Waiting puts no byte on the wire. -/
theorem byteStream_passedTo (b : Bool) (w : Nat → Nat) (n : Nat) :
    byteStream b (passedTo border f w n) = byteStream b (eventsTo border f n) := by
  induction n with
  | zero => rfl
  | succ n ih =>
    rw [passedTo, eventsTo, byteStream_append, byteStream_append, ih]
    split_ifs with hn
    · rw [byteStream_passedEvents _ (dcLevel b (eventsTo border f n))]
    · rfl

theorem eventsTo_append_of_le {m n : Nat} (h : m ≤ n) :
    ∃ es, eventsTo border f n = eventsTo border f m ++ es := by
  induction n, h using Nat.le_induction with
  | base => exact ⟨[], (List.append_nil _).symm⟩
  | succ n _ ih =>
    obtain ⟨es, he⟩ := ih
    exact ⟨_, by rw [eventsTo, he, List.append_assoc]⟩

/-- The bytes of the first positions are the first bytes of a whole UPDATE. -/
theorem byteStream_eventsTo_le (b : Bool) {n : Nat} (hn : n ≤ 25) :
    byteStream b (eventsTo border f n) <+: byteStream b (updateEvents border f) := by
  have h25 : eventsTo border f 25 = updateEvents border f := by
    rw [← eventsTo_update border f]
    exact List.append_nil _
  obtain ⟨es, he⟩ := eventsTo_append_of_le (border := border) (f := f) hn
  rw [← h25, he, byteStream_append]
  exact List.prefix_append _ _

/-! ## The run -/

/-- `s` stands at position `n` of an UPDATE from `s₀`, every position before it passed. -/
structure OnTheWay (s₀ : State) (f : List Byte) (n : Nat) (s : State) : Prop where
  running : s.phase ≠ .idle
  position : s.stepReg.val = n
  inUpdate : s.inUpdate = true
  frame : s.frame = f
  border : s.border = s₀.border
  passed : ∃ w, s.trace = s₀.trace ++ passedTo s₀.border f w n

/-- `t` is an UPDATE from `s₀` over: with OK after position 23, or with an error at a position `n` whose
action put at most its first bytes on the wire. -/
inductive UpdateOver (s₀ : State) (f : List Byte) (t : State) : Prop where
  | done (w : Nat → Nat) (htrace : t.trace = s₀.trace ++ passedTo s₀.border f w 24)
  | failed (n : Fin 25) (w : Nat → Nat) (es : List Event) (hr : t.result ≠ .ok)
      (htrace : t.trace = s₀.trace ++ passedTo s₀.border f w n.val ++ es)
      (hbytes : ∀ b, byteStream b es <+: byteStream b (opEvents s₀.border f (microOp n)))

/-- How one action of an UPDATE ends: passed, and on to the next position; or with an error, its bytes
begun. -/
inductive ActionOutcome (s : State) (op : MicroOp) (t : State) : Prop where
  | passed (u : State) (m : Nat) (ht : t = u.advance) (hu : BusMove s u)
      (htrace : u.trace = s.trace ++ passedEvents s.border s.frame m op)
  | failed (es : List Event) (hi : t.phase = .idle) (hr : t.result ≠ .ok)
      (htrace : t.trace = s.trace ++ es)
      (hbytes : ∀ b, byteStream b es <+: byteStream b (opEvents s.border s.frame op))

theorem await_outcome (s : State) :
    ActionOutcome s .await (settleMicro (s.awaitReady config.busyTimeout)) := by
  obtain ⟨m, htrace, hend⟩ := await_spec config.busyTimeout s
  obtain ⟨hok, -⟩ | ⟨hbusy, -⟩ := hend
  · rw [if_pos hok, List.append_assoc] at htrace
    exact .passed _ m (settleMicro_ok hok) (awaitReady_busMove _ s) htrace
  · have hne : (s.awaitReady config.busyTimeout).2 ≠ .ok := by
      rw [hbusy]
      decide
    rw [if_neg hne, List.append_nil] at htrace
    rw [settleMicro_error hne]
    refine .failed (pollPairs m) rfl hne htrace fun b => ?_
    rw [byteStream_pollPairs]
    exact List.nil_prefix

theorem send_outcome (c : WireCommand) (s : State) :
    ActionOutcome s (.send c) (settleMicro (s.sendWire c)) := by
  have hplan : opEvents s.border s.frame (.send c) = commandEvents c.opcode (payload c s) := by
    rw [payload_eq c s]
    rfl
  by_cases hok : (s.sendWire c).2 = .ok
  · refine .passed _ 0 (settleMicro_ok hok) (sendWire_busMove c s) ?_
    rw [State.sendWire, send_okTrace _ _ _ hok, ← hplan]
    rfl
  · obtain ⟨es, htrace, hbytes⟩ := sendCommand_sentUpTo c.opcode (payload c s) s
    rw [settleMicro_error hok]
    exact .failed es rfl hok htrace (by rw [hplan]; exact hbytes)

/-- Every action of an UPDATE but its end is passed or fails. -/
theorem microAction_outcome {op : MicroOp} {s : State} (hu : s.inUpdate = true) (hop : op ≠ .endUpdate) :
    ActionOutcome s op (s.microAction op) := by
  cases op with
  | driveReset level => exact .passed _ 0 rfl (driveReset_busMove level s) rfl
  | wait d => exact .passed _ 0 rfl (delay_busMove d s) rfl
  | await => exact await_outcome s
  | send c => exact send_outcome c s
  | endSetup => exact .passed s 0 (if_pos hu) (BusMove.refl s) (List.append_nil _).symm
  | endUpdate => exact absurd rfl hop

theorem microOp_endUpdate_iff (n : Fin 25) : microOp n = .endUpdate ↔ n.val = 24 := by
  revert n
  decide

/-- A run from any position of an UPDATE ends as the whole does. -/
theorem OnTheWay.runSequence_over {s₀ s : State} {n k : Nat} (h : OnTheWay s₀ f n s) (hk : 25 ≤ n + k) :
    UpdateOver s₀ f (s.runSequence k) := by
  induction k generalizing n s with
  | zero => exact absurd h.position (by have := s.stepReg.isLt; omega)
  | succ k ih =>
    obtain ⟨hrun, hpos, hupd, hframe, hborder, w, htrace⟩ := h
    rw [runSequence_succ hrun, State.microStep]
    by_cases hop : microOp s.stepReg = .endUpdate
    · have h24 : n = 24 := hpos.symm.trans ((microOp_endUpdate_iff _).mp hop)
      rw [hop, runSequence_idle (by rfl)]
      exact .done w (h24 ▸ htrace)
    · have hlt : n + 1 < 25 := by
        have hne := mt (microOp_endUpdate_iff s.stepReg).mpr hop
        have hlt := s.stepReg.isLt
        omega
      have hreg : s.stepReg = ⟨n, by omega⟩ := Fin.ext hpos
      obtain ⟨u, m, ht, hu, hes⟩ | ⟨es, hi, hr, hes, hbytes⟩ := microAction_outcome hupd hop
      · rw [htrace, List.append_assoc, hborder, hframe, hreg] at hes
        obtain ⟨w', hw'⟩ := passedTo_snoc (border := s₀.border) (f := f) w (by omega : n < 25) m
        rw [hw'] at hes
        have hpos' : u.stepReg.val = n := by rw [hu.stepReg, hpos]
        rw [ht, advance_next (by omega)]
        exact ih ⟨phaseOf_ne_idle _, congrArg (· + 1) hpos', hu.inUpdate.trans hupd,
          hu.frame.trans hframe, hu.border.trans hborder, w', hes⟩ (by omega)
      · rw [runSequence_idle hi]
        rw [hborder, hframe] at hbytes
        exact .failed s.stepReg w es hr (by rw [hes, htrace, hpos]) hbytes

/-- How a whole UPDATE ends, whatever the panel and the transport answer. -/
theorem sequence_updateOver (f : List Byte) (s : State) : UpdateOver s f (s.sequence true f) := by
  have hstart : OnTheWay s f 0 (s.start true f) :=
    ⟨by simp, rfl, rfl, rfl, rfl, fun _ => 0, (List.append_nil _).symm⟩
  exact hstart.runSequence_over (by decide)

/-- An UPDATE that reports OK has passed every position. -/
theorem UpdateOver.trace_of_ok {s₀ t : State} (h : UpdateOver s₀ f t) (hr : t.result = .ok) :
    ∃ w, t.trace = s₀.trace ++ passedTo s₀.border f w 24 := by
  obtain ⟨w, htrace⟩ | ⟨n, w, es, hne, -, -⟩ := h
  · exact ⟨w, htrace⟩
  · exact absurd hr hne

/-- An UPDATE or a SHOW that answers is the sequence with its frame. -/
theorem eq_sequence_of_exec {i : Instr} {s t : State} {f : List Byte} (hs : s.phase = .idle)
    (he : exec i s = .next t) (hi : i = .update f ∨ (i = .showPanel ∧ f = s.shownFrame)) :
    t = s.sequence true f := by
  obtain hi | ⟨hi, hf⟩ := hi
  · rw [hi, exec_update hs] at he
    split_ifs at he
    exact (Host.Outcome.next.inj he).symm
  · rw [hi, exec_showPanel hs] at he
    rw [hf]
    exact (Host.Outcome.next.inj he).symm

/-- Settles O54: only a run that passed every position reports OK. -/
theorem okMeansEverythingWasSent : Obligations.OkMeansEverythingWasSent := by
  intro i s t f hs he hr hi
  have hover := sequence_updateOver f s
  rw [← eq_sequence_of_exec hs he hi] at hover
  obtain ⟨w, htrace⟩ := hover.trace_of_ok hr
  refine ⟨w 4, w 17, w 19, w 21, w 23, ?_⟩
  rw [htrace, passedTo_update]
  simp only [List.append_assoc]

/-- The bytes an UPDATE gets through are the first ones of a whole UPDATE. -/
theorem UpdateOver.bytes {s₀ t : State} (h : UpdateOver s₀ f t) (b : Bool) :
    ∃ es, t.trace = s₀.trace ++ es ∧ byteStream b es <+: byteStream b (updateEvents s₀.border f) := by
  obtain ⟨w, htrace⟩ | ⟨n, w, es, -, htrace, hbytes⟩ := h
  · refine ⟨_, htrace, ?_⟩
    rw [byteStream_passedTo]
    exact byteStream_eventsTo_le b (by decide)
  · refine ⟨_, htrace.trans (List.append_assoc _ _ _), List.IsPrefix.trans ?_
      (byteStream_eventsTo_le b (Nat.succ_le_of_lt n.isLt))⟩
    rw [byteStream_append, byteStream_passedTo, eventsTo, dif_pos n.isLt, byteStream_append]
    refine (List.prefix_append_right_inj _).mpr ((hbytes _).trans ?_)
    rw [byteStream_opEvents _ (dcLevel b (eventsTo s₀.border f n.val))]

/-- Settles O55: the positions passed put the bytes of a whole UPDATE on the wire, and the failing one
begins its own. -/
theorem bytesSentArePrefix : Obligations.BytesSentArePrefix := by
  intro f s b hs hl
  obtain ⟨es, htrace, hbytes⟩ := (sequence_updateOver f s).bytes b
  exact ⟨_, es, (exec_update hs f).trans (if_pos hl), htrace, hbytes⟩

end Sys2Proof.Machine
end

section
/-! A panel that never answers (43_protocol_driver.md R192, R196; 95 P4). -/

namespace Sys2Proof.Machine

/-- The same state at another position of a running sequence. -/
def State.movedTo (n : Fin 25) (s : State) : State := { s with stepReg := n, phase := phaseOf n }

@[simp] theorem State.movedTo_resetOut (n : Fin 25) (s : State) : (s.movedTo n).resetOut = s.resetOut := rfl
@[simp] theorem State.movedTo_dcOut (n : Fin 25) (s : State) : (s.movedTo n).dcOut = s.dcOut := rfl
@[simp] theorem State.movedTo_csOut (n : Fin 25) (s : State) : (s.movedTo n).csOut = s.csOut := rfl
@[simp] theorem State.movedTo_busyIn (n : Fin 25) (s : State) : (s.movedTo n).busyIn = s.busyIn := rfl
@[simp] theorem State.movedTo_timer (n : Fin 25) (s : State) : (s.movedTo n).timer = s.timer := rfl
@[simp] theorem State.movedTo_trace (n : Fin 25) (s : State) : (s.movedTo n).trace = s.trace := rfl

theorem advance_eq_movedTo {s : State} {n : Fin 25} (h : s.stepReg.val + 1 = n.val) :
    s.advance = s.movedTo n := by
  have hlt : s.stepReg.val + 1 < 25 := h ▸ n.isLt
  have hn : (⟨s.stepReg.val + 1, hlt⟩ : Fin 25) = n := Fin.ext h
  rw [advance_next hlt, hn, State.movedTo]

/-- A position that drives RESET_OUT. -/
theorem runSequence_driveReset {s : State} {n : Fin 25} {b : Bool} (k : Nat) (hp : s.phase ≠ .idle)
    (hop : microOp s.stepReg = .driveReset b) (hn : s.stepReg.val + 1 = n.val) :
    s.runSequence (k + 1) = ((s.driveReset b).movedTo n).runSequence k := by
  rw [runSequence_succ hp, State.microStep, hop, State.microAction]
  exact congrArg _ (advance_eq_movedTo hn)

/-- A position that lets time pass. -/
theorem runSequence_delay {s : State} {n : Fin 25} {d : Duration} (k : Nat) (hp : s.phase ≠ .idle)
    (hop : microOp s.stepReg = .wait d) (hn : s.stepReg.val + 1 = n.val) :
    s.runSequence (k + 1) = ((s.delay d).movedTo n).runSequence k := by
  rw [runSequence_succ hp, State.microStep, hop, State.microAction]
  exact congrArg _ (advance_eq_movedTo hn)

/-- The state at position 4: a sequence started and the reset pulse given. -/
def State.afterPulse (inUpdate : Bool) (f : List Byte) (s : State) : State :=
  ((((((((s.start inUpdate f).driveReset false).movedTo 1).delay 100).movedTo 2).driveReset true).movedTo
    3).delay 100).movedTo 4

/-- A sequence reaches position 4, whatever the environment. -/
theorem sequence_afterPulse (inUpdate : Bool) (f : List Byte) (s : State) :
    s.sequence inUpdate f = (s.afterPulse inUpdate f).runSequence 21 := by
  rw [State.sequence, runSequence_driveReset (n := 1) 24 (phaseOf_ne_idle 0) rfl rfl,
    runSequence_delay (n := 2) 23 (phaseOf_ne_idle 1) rfl rfl,
    runSequence_driveReset (n := 3) 22 (phaseOf_ne_idle 2) rfl rfl,
    runSequence_delay (n := 4) 21 (phaseOf_ne_idle 3) rfl rfl]
  rfl

theorem afterPulse_pins (inUpdate : Bool) (f : List Byte) (s : State) :
    (s.afterPulse inUpdate f).csOut = s.csOut ∧ (s.afterPulse inUpdate f).dcOut = s.dcOut ∧
      (s.afterPulse inUpdate f).resetOut = true := by
  simp [State.afterPulse]

theorem afterPulse_busyIn (inUpdate : Bool) (f : List Byte) (s : State) :
    (s.afterPulse inUpdate f).busyIn = s.busyIn := by
  simp [State.afterPulse]

theorem afterPulse_timer (inUpdate : Bool) (f : List Byte) (s : State) :
    s.timer + 200 ≤ (s.afterPulse inUpdate f).timer := by
  simp only [State.afterPulse, State.movedTo_timer, State.delay_timer, State.driveReset_timer,
    State.start_timer]
  omega

theorem afterPulse_trace (inUpdate : Bool) (f : List Byte) (s : State) :
    (s.afterPulse inUpdate f).trace =
      s.trace ++ [.rst false, .delay 100, .rst true, .delay 100] := by
  simp [State.afterPulse]

/-- With a pin that never reads 1 the wait at position 4 ends the sequence. -/
theorem sequence_stuck (inUpdate : Bool) (f : List Byte) {s : State} (hpin : s.pinStuck) :
    ∃ m, s.sequence inUpdate f =
        ((s.afterPulse inUpdate f).awaitReady config.busyTimeout).1.raise .busyTimeout .none ∧
      ((s.afterPulse inUpdate f).awaitReady config.busyTimeout).1.trace =
        s.trace ++ [.rst false, .delay 100, .rst true, .delay 100] ++ pollPairs m ∧
      s.timer + 200 + config.busyTimeout ≤
        ((s.afterPulse inUpdate f).awaitReady config.busyTimeout).1.timer := by
  have hpin' : (s.afterPulse inUpdate f).pinStuck := by
    rw [State.pinStuck, afterPulse_busyIn]
    exact hpin
  obtain ⟨m, hact, htrace, htimer⟩ := microAction_stuck hpin' (.inl rfl)
  refine ⟨m, ?_, by rw [htrace, afterPulse_trace],
    (Nat.add_le_add_right (afterPulse_timer inUpdate f s) _).trans htimer⟩
  rw [sequence_afterPulse, runSequence_succ (phaseOf_ne_idle 4), State.microStep, hact, runSequence_idle rfl]

/-- Settles O56: the wait at position 4 never gets its answer, and no write comes before it. -/
theorem silentPanelSendsNothing : Obligations.SilentPanelSendsNothing := by
  intro i s hi hs hpin
  obtain ⟨u, f, he⟩ : ∃ u f, exec i s = .next (s.sequence u f) :=
    exec_sequence_of_kind hs (hi.imp_right Or.inl)
  obtain ⟨m, hseq, htrace, htimer⟩ := sequence_stuck u f hpin
  obtain ⟨hcs, hdc, hrst⟩ := await_frame config.busyTimeout (s.afterPulse u f)
  obtain ⟨hcs', hdc', hrst'⟩ := afterPulse_pins u f s
  rw [hseq] at he
  exact ⟨_, m, he, rfl, rfl, htrace, hcs.trans hcs', hdc.trans hdc', hrst.trans hrst', htimer⟩

end Sys2Proof.Machine
end
